-- ==== Sys2Proof/Word.lean ====
section
/-! DEFINITION. The word types of the block (spec/00_scope.md R5, R8; spec/10_state.md R20, R23, R29). -/

namespace Sys2Proof

/-- An 8-bit value: a V register, a timer, a memory byte, the nn field. -/
abbrev Byte := BitVec 8

/-- A 16-bit value: pc, I, a return address, an instruction word. -/
abbrev Word := BitVec 16

/-- A 12-bit address field nnn (R73). -/
abbrev Addr12 := BitVec 12

/-- The index of a general register or of a key, or a sprite's row count: a 4-bit field (R73, R80). -/
abbrev Index := Fin 16

/-- The index of VF, the flag register (R21). -/
abbrev VF : Index := 15

/-- The frame buffer: 32 rows of 64 pixels (R29). Bit c of row r is the pixel of column c, row r. -/
abbrev Frame := Vector (BitVec 64) 32

/-- A pixel's position: column 0..63, row 0..31 (R29). -/
abbrev Pixel := Fin 64 × Fin 32

end Sys2Proof
end

