-- ==== Sys2Proof/Config.lean ====
section
/-! DEFINITION. What the spec leaves to a parameter (spec/00_scope.md R5; spec/92_eei_decisions.md D3, D4, D10, D13)
and the free values it leaves to a draw (D12, D18). -/

namespace Sys2Proof

/-- P_VF_ORDER: which write of VF is final when the destination is VF, and whether a read after the flag write sees
it (spec/41_register_alu.md R120, R134). -/
inductive VfOrder where
  | asListed
  | flagLast
  | sequential
  deriving DecidableEq, Repr

/-- P_FX29_WIDE: the digit Fx29 uses when V[x] > 0xF (spec/42_index_memory.md R152). -/
inductive Fx29Wide where
  | lowNibble
  | unmasked
  deriving DecidableEq, Repr

/-- The four parameters of R5. The State holds one value of each and no step changes it (assumption 2). -/
structure Params where
  /-- P_STACK_DEPTH: some bound, or none for "unbounded" (spec/10_state.md R27). -/
  stackDepth : Option Nat
  vfOrder : VfOrder
  fx29Wide : Fx29Wide
  /-- P_FONT: the 80 bytes that reset copies to 0x050..0x09F (spec/10_state.md R33). -/
  font : Vector Byte 80
  deriving DecidableEq, Repr

/-- The random byte of draw n: any of 0..255, with no law (spec/60_exceptions.md R232, D18; assumption 5). -/
opaque Config.randByte : Nat → Byte

/-- The frame buffer that a reset leaves at draw n: any 2048 bits (spec/10_state.md R37, D12; assumption 4). -/
opaque Config.resetFrame : Nat → Frame

end Sys2Proof
end

