-- ==== Sys2Proof/Syntax.lean ====
section
/-! DEFINITION. The 34 instructions of spec/opcode_table.json, one constructor per row, in the table's order
(spec/30_encoding.md R75, R82). Operand types carry their field's width (R73, R80). -/

namespace Sys2Proof

inductive Instr where
  | cls
  | ret
  | jp (nnn : Addr12)
  | call (nnn : Addr12)
  | seImm (x : Index) (nn : Byte)
  | sneImm (x : Index) (nn : Byte)
  | seReg (x y : Index)
  | ldImm (x : Index) (nn : Byte)
  | addImm (x : Index) (nn : Byte)
  | ldReg (x y : Index)
  | orReg (x y : Index)
  | andReg (x y : Index)
  | xorReg (x y : Index)
  | addReg (x y : Index)
  | sub (x y : Index)
  /-- 8xy6: its y field is ignored, so it is no operand (R85). -/
  | shr (x : Index)
  | subn (x y : Index)
  /-- 8xyE: its y field is ignored, so it is no operand (R85). -/
  | shl (x : Index)
  | sneReg (x y : Index)
  | ldI (nnn : Addr12)
  | jpV0 (nnn : Addr12)
  | rnd (x : Index) (nn : Byte)
  | drw (x y n : Index)
  | skp (x : Index)
  | sknp (x : Index)
  | ldVxDt (x : Index)
  | ldVxK (x : Index)
  | ldDtVx (x : Index)
  | ldStVx (x : Index)
  | addI (x : Index)
  | ldF (x : Index)
  | ldB (x : Index)
  | ldMemVx (x : Index)
  | ldVxMem (x : Index)
  deriving DecidableEq, Repr

/-- The mnemonic of the instruction's row in spec/opcode_table.json. -/
def Instr.mnemonic : Instr → String
  | .cls => "CLS"
  | .ret => "RET"
  | .jp _ => "JP"
  | .call _ => "CALL"
  | .seImm _ _ => "SE_VX_NN"
  | .sneImm _ _ => "SNE_VX_NN"
  | .seReg _ _ => "SE_VX_VY"
  | .ldImm _ _ => "LD_VX_NN"
  | .addImm _ _ => "ADD_VX_NN"
  | .ldReg _ _ => "LD_VX_VY"
  | .orReg _ _ => "OR"
  | .andReg _ _ => "AND"
  | .xorReg _ _ => "XOR"
  | .addReg _ _ => "ADD_VX_VY"
  | .sub _ _ => "SUB"
  | .shr _ => "SHR"
  | .subn _ _ => "SUBN"
  | .shl _ => "SHL"
  | .sneReg _ _ => "SNE_VX_VY"
  | .ldI _ => "LD_I_NNN"
  | .jpV0 _ => "JP_V0_NNN"
  | .rnd _ _ => "RND"
  | .drw _ _ _ => "DRW"
  | .skp _ => "SKP"
  | .sknp _ => "SKNP"
  | .ldVxDt _ => "LD_VX_DT"
  | .ldVxK _ => "LD_VX_K"
  | .ldDtVx _ => "LD_DT_VX"
  | .ldStVx _ => "LD_ST_VX"
  | .addI _ => "ADD_I_VX"
  | .ldF _ => "LD_F_VX"
  | .ldB _ => "LD_B_VX"
  | .ldMemVx _ => "LD_MEM_I_VX"
  | .ldVxMem _ => "LD_VX_MEM_I"

end Sys2Proof
end

