-- ==== Sys2Proof/WellFormed.lean ====
section
/-! DEFINITION. The checks on what enters the block. An Instr cannot be ill formed: each operand's type is its
field's width. A 16-bit WORD is well formed when it matches a row of spec/opcode_table.json (spec/30_encoding.md R75,
R78), written here as the table's masks and patterns, apart from the decoder. A program IMAGE is well formed when it
fits from 0x200 (spec/70_reset_and_hazards.md R253, R254). -/

namespace Sys2Proof

/-- A row of the opcode table: the literal bits of its pattern (mask) and their values (pattern). -/
structure Row where
  mnemonic : String
  mask : Word
  pattern : Word
  deriving DecidableEq, Repr

/-- Every literal digit of the row's pattern matches (R78). -/
def Row.covers (r : Row) (w : Word) : Bool := w &&& r.mask == r.pattern

/-- Rows of prefixes 0 to 7 and the logical operations of prefix 8. -/
def opcodeRows1 : List Row := [
  ⟨"CLS", 0xffff#16, 0x00e0#16⟩,
  ⟨"RET", 0xffff#16, 0x00ee#16⟩,
  ⟨"JP", 0xf000#16, 0x1000#16⟩,
  ⟨"CALL", 0xf000#16, 0x2000#16⟩,
  ⟨"SE_VX_NN", 0xf000#16, 0x3000#16⟩,
  ⟨"SNE_VX_NN", 0xf000#16, 0x4000#16⟩,
  ⟨"SE_VX_VY", 0xf00f#16, 0x5000#16⟩,
  ⟨"LD_VX_NN", 0xf000#16, 0x6000#16⟩,
  ⟨"ADD_VX_NN", 0xf000#16, 0x7000#16⟩,
  ⟨"LD_VX_VY", 0xf00f#16, 0x8000#16⟩,
  ⟨"OR", 0xf00f#16, 0x8001#16⟩,
  ⟨"AND", 0xf00f#16, 0x8002#16⟩,
  ⟨"XOR", 0xf00f#16, 0x8003#16⟩]

/-- The rest of prefix 8, and prefixes 9 to D. -/
def opcodeRows2 : List Row := [
  ⟨"ADD_VX_VY", 0xf00f#16, 0x8004#16⟩,
  ⟨"SUB", 0xf00f#16, 0x8005#16⟩,
  ⟨"SHR", 0xf00f#16, 0x8006#16⟩,
  ⟨"SUBN", 0xf00f#16, 0x8007#16⟩,
  ⟨"SHL", 0xf00f#16, 0x800e#16⟩,
  ⟨"SNE_VX_VY", 0xf00f#16, 0x9000#16⟩,
  ⟨"LD_I_NNN", 0xf000#16, 0xa000#16⟩,
  ⟨"JP_V0_NNN", 0xf000#16, 0xb000#16⟩,
  ⟨"RND", 0xf000#16, 0xc000#16⟩,
  ⟨"DRW", 0xf000#16, 0xd000#16⟩]

/-- Prefixes E and F. -/
def opcodeRows3 : List Row := [
  ⟨"SKP", 0xf0ff#16, 0xe09e#16⟩,
  ⟨"SKNP", 0xf0ff#16, 0xe0a1#16⟩,
  ⟨"LD_VX_DT", 0xf0ff#16, 0xf007#16⟩,
  ⟨"LD_VX_K", 0xf0ff#16, 0xf00a#16⟩,
  ⟨"LD_DT_VX", 0xf0ff#16, 0xf015#16⟩,
  ⟨"LD_ST_VX", 0xf0ff#16, 0xf018#16⟩,
  ⟨"ADD_I_VX", 0xf0ff#16, 0xf01e#16⟩,
  ⟨"LD_F_VX", 0xf0ff#16, 0xf029#16⟩,
  ⟨"LD_B_VX", 0xf0ff#16, 0xf033#16⟩,
  ⟨"LD_MEM_I_VX", 0xf0ff#16, 0xf055#16⟩,
  ⟨"LD_VX_MEM_I", 0xf0ff#16, 0xf065#16⟩]

/-- spec/opcode_table.json, all 34 rows in its order. -/
def opcodeTable : List Row := opcodeRows1 ++ opcodeRows2 ++ opcodeRows3

/-- The word matches a row of the table; any other word is Unknown (R75, R84). -/
def wordWellFormed (w : Word) : Bool := opcodeTable.any (fun r => r.covers w)

/-- The largest program image: 4096 - 0x200 bytes (spec/00_scope.md R5). -/
def maxProgramSize : Nat := 4096 - 0x200

/-- The image fits in 0x200..0xFFF (spec/70_reset_and_hazards.md R253). -/
def imageWellFormed (image : List Byte) : Bool := image.length ≤ maxProgramSize

end Sys2Proof
end

