-- ==== Sys2Proof/Decode.lean ====
section
/-! DEFINITION. The decoder (spec/30_encoding.md R71 to R78, R85), total on every word and on every list of bytes, and
the encoder of the same formats (R79). -/

namespace Sys2Proof

/-- Field p, the high nibble (R73). -/
def fieldP (w : Word) : BitVec 4 := w.extractLsb' 12 4

/-- Field x, bits 11..8 (R73). -/
def fieldX (w : Word) : Index := (w.extractLsb' 8 4).toFin

/-- Field y, bits 7..4 (R73). -/
def fieldY (w : Word) : Index := (w.extractLsb' 4 4).toFin

/-- Field n, bits 3..0 (R73). -/
def fieldN (w : Word) : Index := (w.extractLsb' 0 4).toFin

/-- Field nn, bits 7..0 (R73). -/
def fieldNN (w : Word) : Byte := w.extractLsb' 0 8

/-- Field nnn, bits 11..0 (R73). -/
def fieldNNN (w : Word) : Addr12 := w.extractLsb' 0 12

/-- Prefix 0x0: only the two whole words 0x00E0 and 0x00EE (R75, R78; spec/90_conflicts.md C6). -/
def decode0 (w : Word) : Option Instr :=
  if w = 0x00E0#16 then some .cls
  else if w = 0x00EE#16 then some .ret
  else none

/-- Prefix 0x8: dispatch on the low nibble (R75). -/
def decode8 (w : Word) : Option Instr :=
  match (fieldN w).val with
  | 0x0 => some (.ldReg (fieldX w) (fieldY w))
  | 0x1 => some (.orReg (fieldX w) (fieldY w))
  | 0x2 => some (.andReg (fieldX w) (fieldY w))
  | 0x3 => some (.xorReg (fieldX w) (fieldY w))
  | 0x4 => some (.addReg (fieldX w) (fieldY w))
  | 0x5 => some (.sub (fieldX w) (fieldY w))
  | 0x6 => some (.shr (fieldX w))
  | 0x7 => some (.subn (fieldX w) (fieldY w))
  | 0xE => some (.shl (fieldX w))
  | _ => none

/-- Prefix 0xE: dispatch on the low byte (R75). -/
def decodeE (w : Word) : Option Instr :=
  if fieldNN w = 0x9E#8 then some (.skp (fieldX w))
  else if fieldNN w = 0xA1#8 then some (.sknp (fieldX w))
  else none

/-- Prefix 0xF: dispatch on the low byte (R75). -/
def decodeF (w : Word) : Option Instr :=
  if fieldNN w = 0x07#8 then some (.ldVxDt (fieldX w))
  else if fieldNN w = 0x0A#8 then some (.ldVxK (fieldX w))
  else if fieldNN w = 0x15#8 then some (.ldDtVx (fieldX w))
  else if fieldNN w = 0x18#8 then some (.ldStVx (fieldX w))
  else if fieldNN w = 0x1E#8 then some (.addI (fieldX w))
  else if fieldNN w = 0x29#8 then some (.ldF (fieldX w))
  else if fieldNN w = 0x33#8 then some (.ldB (fieldX w))
  else if fieldNN w = 0x55#8 then some (.ldMemVx (fieldX w))
  else if fieldNN w = 0x65#8 then some (.ldVxMem (fieldX w))
  else none

/-- Decode of R75: the instruction a word stands for, or none for Unknown. -/
def decode (w : Word) : Option Instr :=
  match (fieldP w).toNat with
  | 0x0 => decode0 w
  | 0x1 => some (.jp (fieldNNN w))
  | 0x2 => some (.call (fieldNNN w))
  | 0x3 => some (.seImm (fieldX w) (fieldNN w))
  | 0x4 => some (.sneImm (fieldX w) (fieldNN w))
  | 0x5 => if fieldN w = 0x0 then some (.seReg (fieldX w) (fieldY w)) else none
  | 0x6 => some (.ldImm (fieldX w) (fieldNN w))
  | 0x7 => some (.addImm (fieldX w) (fieldNN w))
  | 0x8 => decode8 w
  | 0x9 => if fieldN w = 0x0 then some (.sneReg (fieldX w) (fieldY w)) else none
  | 0xA => some (.ldI (fieldNNN w))
  | 0xB => some (.jpV0 (fieldNNN w))
  | 0xC => some (.rnd (fieldX w) (fieldNN w))
  | 0xD => some (.drw (fieldX w) (fieldY w) (fieldN w))
  | 0xE => decodeE w
  | _ => decodeF w

/-- Two bytes as an instruction word: the lower address holds bits 15..8 (R71; spec/20_memory.md R51). -/
def joinBytes (hi lo : Byte) : Word := hi ++ lo

/-- What a list of bytes decodes to. -/
inductive Decoded where
  /-- An instruction, and the bytes after its two (R72). -/
  | instr (i : Instr) (rest : List Byte)
  /-- The first two bytes form a word outside the table (R77). -/
  | unknown (w : Word)
  /-- Fewer than two bytes. -/
  | truncated
  deriving DecidableEq, Repr

/-- The decoder on bytes as they lie in memory, lowest address first. -/
def decodeBytes : List Byte → Decoded
  | hi :: lo :: rest =>
    match decode (joinBytes hi lo) with
    | some i => .instr i rest
    | none => .unknown (joinBytes hi lo)
  | _ => .truncated

/-- The instruction among the outcomes of decodeBytes, if there is one. -/
def decodedInstr : Decoded → Option Instr
  | .instr i _ => some i
  | .unknown _ => none
  | .truncated => none

/-- The word of a table row's bits: nbits of w, every bit above them 0. -/
def tableWord (nbits w : Nat) : Word := BitVec.ofNat 16 (w % 2 ^ nbits)

/-- The high byte of a word, stored at the lower address (R51). -/
def highByte (w : Word) : Byte := w.extractLsb' 8 8

/-- The low byte of a word, stored at the higher address (R51). -/
def lowByte (w : Word) : Byte := w.extractLsb' 0 8

/-- The decoder's reading of an opcode-table word, laid out in memory order. -/
def decodeTableWord (nbits w : Nat) : Option Instr :=
  decodedInstr (decodeBytes [highByte (tableWord nbits w), lowByte (tableWord nbits w)])

/-- Format FA: prefix and address (R79). -/
def encodeFA (p : BitVec 4) (nnn : Addr12) : Word := p ++ nnn

/-- A register index or a row count as its 4-bit field (R73). -/
def nibble (x : Index) : BitVec 4 := BitVec.ofFin x

/-- Formats FB and FX: prefix, register, and an immediate byte or a suffix byte (R79). -/
def encodeFB (p : BitVec 4) (x : Index) (nn : Byte) : Word := p ++ nibble x ++ nn

/-- Formats FR and FD: prefix, two registers, and a suffix or a row count (R79). -/
def encodeFR (p : BitVec 4) (x y n : Index) : Word := p ++ nibble x ++ nibble y ++ nibble n

/-- The word of an instruction (R79). The ignored y of 8xy6 and 8xyE is written 0 (R82). -/
def encode : Instr → Word
  | .cls => 0x00E0#16
  | .ret => 0x00EE#16
  | .jp nnn => encodeFA 0x1 nnn
  | .call nnn => encodeFA 0x2 nnn
  | .seImm x nn => encodeFB 0x3 x nn
  | .sneImm x nn => encodeFB 0x4 x nn
  | .seReg x y => encodeFR 0x5 x y 0x0
  | .ldImm x nn => encodeFB 0x6 x nn
  | .addImm x nn => encodeFB 0x7 x nn
  | .ldReg x y => encodeFR 0x8 x y 0x0
  | .orReg x y => encodeFR 0x8 x y 0x1
  | .andReg x y => encodeFR 0x8 x y 0x2
  | .xorReg x y => encodeFR 0x8 x y 0x3
  | .addReg x y => encodeFR 0x8 x y 0x4
  | .sub x y => encodeFR 0x8 x y 0x5
  | .shr x => encodeFR 0x8 x 0x0 0x6
  | .subn x y => encodeFR 0x8 x y 0x7
  | .shl x => encodeFR 0x8 x 0x0 0xE
  | .sneReg x y => encodeFR 0x9 x y 0x0
  | .ldI nnn => encodeFA 0xA nnn
  | .jpV0 nnn => encodeFA 0xB nnn
  | .rnd x nn => encodeFB 0xC x nn
  | .drw x y n => encodeFR 0xD x y n
  | .skp x => encodeFB 0xE x 0x9E
  | .sknp x => encodeFB 0xE x 0xA1
  | .ldVxDt x => encodeFB 0xF x 0x07
  | .ldVxK x => encodeFB 0xF x 0x0A
  | .ldDtVx x => encodeFB 0xF x 0x15
  | .ldStVx x => encodeFB 0xF x 0x18
  | .addI x => encodeFB 0xF x 0x1E
  | .ldF x => encodeFB 0xF x 0x29
  | .ldB x => encodeFB 0xF x 0x33
  | .ldMemVx x => encodeFB 0xF x 0x55
  | .ldVxMem x => encodeFB 0xF x 0x65

end Sys2Proof
end

