-- ==== Sys2Proof/Machine/Defaults.lean ====
section
/-! DEFINITION. The stated defaults of the four parameters (spec/00_scope.md R5; assumptions 2 and 3). -/

namespace Sys2Proof.Machine

/-- The default glyphs 0 to 7 (spec/10_state.md R33; PRESUMED, the spec takes them from general knowledge). -/
def fontLow : List Byte := [
  0xF0, 0x90, 0x90, 0x90, 0xF0,
  0x20, 0x60, 0x20, 0x20, 0x70,
  0xF0, 0x10, 0xF0, 0x80, 0xF0,
  0xF0, 0x10, 0xF0, 0x10, 0xF0,
  0x90, 0x90, 0xF0, 0x10, 0x10,
  0xF0, 0x80, 0xF0, 0x10, 0xF0,
  0xF0, 0x80, 0xF0, 0x90, 0xF0,
  0xF0, 0x10, 0x20, 0x40, 0x40]

/-- The default glyphs 8 to F (spec/10_state.md R33; PRESUMED, as fontLow). -/
def fontHigh : List Byte := [
  0xF0, 0x90, 0xF0, 0x90, 0xF0,
  0xF0, 0x90, 0xF0, 0x10, 0xF0,
  0xF0, 0x90, 0xF0, 0x90, 0x90,
  0xE0, 0x90, 0xE0, 0x90, 0xE0,
  0xF0, 0x80, 0x80, 0x80, 0xF0,
  0xE0, 0x90, 0x90, 0x90, 0xE0,
  0xF0, 0x80, 0xF0, 0x80, 0xF0,
  0xF0, 0x80, 0xF0, 0x80, 0x80]

/-- P_FONT's default, 16 glyphs of 5 bytes (spec/10_state.md R33). -/
def defaultFont : Vector Byte 80 := ⟨(fontLow ++ fontHigh).toArray, rfl⟩

/-- The default of every parameter (spec/00_scope.md R5). -/
def defaultParams : Params where
  stackDepth := some 16
  vfOrder := .asListed
  fx29Wide := .lowNibble
  font := defaultFont

end Sys2Proof.Machine
end

