-- ==== Sys2Proof/Machine/State.lean ====
section
/-! DEFINITION. The state of the block (spec/10_state.md), its fault kinds and record (spec/60_exceptions.md R210,
R217), and the state after reset (spec/10_state.md R37, spec/70_reset_and_hazards.md R250). -/

namespace Sys2Proof.Machine

/-- The five step faults of R210, each with the extra information R217 gives it. The block TAKES a fault: it halts in
a next state that holds the record (R216; assumption 1), so no step answers Outcome.fault; the kinds stand in the
state's fault record. -/
inductive Fault where
  /-- Raised at decode by every word outside the table (R211). Safe: the spec's own fault. -/
  | unknownOpcode
  /-- Raised by 00EE with an empty stack (R212). Safe: the spec's own fault. -/
  | stackUnderflow
  /-- Raised by 2nnn with P_STACK_DEPTH entries on the stack (R213). Safe: the spec's own fault. -/
  | stackOverflow
  /-- Raised by a fetch and by Dxyn, Fx33, Fx55, Fx65; addr is the first address of 4096 or more (R214). Safe: the
  spec's own fault. -/
  | memoryOutOfBounds (addr : Nat)
  /-- Raised by Ex9E and ExA1 with V[x] > 0xF; key is that value (R215). Safe: the spec's own fault. -/
  | keyIndexOutOfRange (key : Byte)
  deriving DecidableEq, Repr

/-- Why a step could have no meaning. -/
inductive Refusal where
  /-- Raised by an arm of exec whose instruction has no meaning yet; no arm does so now. Safe. -/
  | notModelled (mnemonic : String)
  deriving DecidableEq, Repr

/-- The fault record (R217). Its code and info are functions of kind: Fault.code, Fault.info in Machine/Ops.lean. -/
structure FaultRecord where
  kind : Fault
  /-- The address of the instruction that faulted, or of the failing fetch. -/
  pc : Word
  /-- The faulting instruction's word; none for a fetch fault. -/
  word : Option Word
  deriving DecidableEq, Repr

/-- Memory: the bytes that differ from the reset contents, by rising address (spec/10_state.md R31). -/
abbrev Memory := List Host.Cell

/-- The state tuple of spec/10_state.md, then the block's inputs and the model's own fields. -/
structure State where
  /-- V0..VF (R20, R21). -/
  v : Vector Byte 16
  /-- The index register (R25). -/
  i : Word
  /-- The address of the next instruction to fetch (R23). -/
  pc : Word
  /-- The return stack, oldest entry first (R27). -/
  stack : List Word
  /-- The delay timer (R26). -/
  dt : Byte
  /-- The sound timer (R28). -/
  st : Byte
  /-- The 4096 bytes (R31). -/
  mem : Memory
  /-- The frame buffer (R29). -/
  fb : Frame
  /-- Set by a fault, cleared by reset (R34, R216). -/
  halted : Bool
  /-- The record of the fault that halted the block (R34, R217). -/
  fault : Option FaultRecord
  /-- INPUT: the key levels, true = pressed; only the host changes them (R30, R231; assumption 6). -/
  keys : Vector Bool 16
  /-- MODEL: the index of the next free value (assumption 5). -/
  draws : Nat
  /-- MODEL: the values of the spec's parameters (R5; assumption 2). -/
  params : Params
  deriving DecidableEq, Repr

/-- The state after a reset (R250, R37), for the given parameters, frame buffer draw, key levels and next draw. -/
def State.resetWith (p : Params) (fb : Frame) (keys : Vector Bool 16) (draws : Nat) : State where
  v := Vector.replicate 16 0x00
  i := 0x0000
  pc := 0x0200
  stack := []
  dt := 0x00
  st := 0x00
  mem := []
  fb := fb
  halted := false
  fault := none
  keys := keys
  draws := draws
  params := p

/-- The state after power-on and reset: the default parameters (R5), an unconstrained frame buffer (D12), no key
pressed (DESIGN CHOICE, assumption 6). -/
def State.reset : State :=
  .resetWith defaultParams (Config.resetFrame 0) (Vector.replicate 16 false) 1

end Sys2Proof.Machine
end

