-- ==== Sys2Proof/Machine/Ops.lean ====
section
/-! DEFINITION. The named operations over memory, registers, stack, pc and frame buffer (spec/00_scope.md R9), the
taking of a fault (spec/60_exceptions.md R216), and the fetch (spec/30_encoding.md R71). -/

namespace Sys2Proof.Machine

/-! ## Memory -/

/-- What an unlisted address reads as: the reset contents, P_FONT at 0x050..0x09F and 0x00 elsewhere (R37, R56). -/
def Memory.unlisted (font : Vector Byte 80) (a : Nat) : Byte :=
  if 0x050 ≤ a then font[a - 0x050]?.getD 0x00 else 0x00

/-- The byte at an address. -/
def Memory.read (font : Vector Byte 80) : Memory → Nat → Byte
  | [], a => Memory.unlisted font a
  | (k, b) :: m, a => if k = a then b else Memory.read font m a

/-- A listed cell in front of m, left out where it holds what an unlisted address reads as. -/
def Memory.cons (font : Vector Byte 80) (a : Nat) (b : Byte) (m : Memory) : Memory :=
  if b = Memory.unlisted font a then m else (a, b) :: m

/-- Write one byte, keeping the canonical form. -/
def Memory.write (font : Vector Byte 80) : Memory → Nat → Byte → Memory
  | [], a, b => Memory.cons font a b []
  | (k, c) :: m, a, b =>
    if a < k then Memory.cons font a b ((k, c) :: m)
    else if a = k then Memory.cons font a b m
    else (k, c) :: Memory.write font m a b

/-- Write bytes at consecutive addresses, lowest first. -/
def Memory.writeList (font : Vector Byte 80) (m : Memory) (a : Nat) : List Byte → Memory
  | [] => m
  | b :: bs => Memory.writeList font (Memory.write font m a b) (a + 1) bs

/-- The cells from address lo on: rising, below 4096, none equal to what an unlisted address reads as. -/
def Memory.wfFrom (font : Vector Byte 80) (lo : Nat) : Memory → Bool
  | [] => true
  | (k, b) :: m =>
    decide (lo ≤ k) && decide (k < 4096) && decide (b ≠ Memory.unlisted font k) && Memory.wfFrom font (k + 1) m

/-- The canonical form: strictly rising addresses below 4096, no cell that an unlisted address reads as. -/
def Memory.wf (font : Vector Byte 80) (m : Memory) : Bool := Memory.wfFrom font 0 m

/-- mem[a]: the byte at address a, for an address the bounds check has passed (R53). -/
def State.byteAt (s : State) (a : Nat) : Byte := Memory.read s.params.font s.mem a

/-- The bytes mem[a], mem[a+1], ..., count of them. -/
def State.bytesAt (s : State) (a count : Nat) : List Byte := (List.range count).map (fun k => s.byteAt (a + k))

/-- MemWrite of bytes at consecutive addresses that the bounds check has passed (R52, R53). -/
def State.storeBytes (s : State) (a : Nat) (bs : List Byte) : State :=
  { s with mem := Memory.writeList s.params.font s.mem a bs }

/-- The bounds check of a transfer of count bytes from address base: the fault at the lowest address of 4096 or more,
if the transfer reaches one (R53, R54, R156). -/
def boundsFault (base count : Nat) : Option Fault :=
  if count ≠ 0 ∧ 4096 ≤ base + count - 1 then some (.memoryOutOfBounds (max base 4096)) else none

/-! ## Registers, pc, timers -/

/-- Read V[x] (R9). -/
def State.getV (s : State) (x : Index) : Byte := s.v[x]

/-- Write V[x] (R9). -/
def State.setV (s : State) (x : Index) (b : Byte) : State := { s with v := s.v.set x b }

/-- Write V[0], ..., V[count-1] from a list of bytes, as many as the list and the register file have. -/
def State.loadV (s : State) (bs : List Byte) : State :=
  { s with v := Vector.ofFn fun k => bs[k]?.getD (s.getV k) }

/-- Write I. -/
def State.setI (s : State) (w : Word) : State := { s with i := w }

/-- Set the address of the next instruction. -/
def State.setPc (s : State) (w : Word) : State := { s with pc := w }

/-- The default advance (R76). -/
def State.advance (s : State) : State := s.setPc (s.pc + 2)

/-- Advance, and pass over the next 2-byte instruction when c holds (R12, R103). -/
def State.skipIf (s : State) (c : Bool) : State := if c then s.setPc (s.pc + 4) else s.advance

/-- Write DT. -/
def State.setDt (s : State) (b : Byte) : State := { s with dt := b }

/-- Write ST. -/
def State.setSt (s : State) (b : Byte) : State := { s with st := b }

/-! ## The return stack (R27) -/

/-- The stack holds P_STACK_DEPTH entries; never so when the depth is unbounded (R27, R213). -/
def State.stackFull (s : State) : Bool :=
  match s.params.stackDepth with
  | some d => s.stack.length == d
  | none => false

/-- Push a return address. -/
def State.push (s : State) (w : Word) : State := { s with stack := s.stack ++ [w] }

/-- Take the last entry off the stack. -/
def State.dropTop (s : State) : State := { s with stack := s.stack.dropLast }

/-! ## The frame buffer (R29) -/

/-- FB[c, r]. -/
def framePixel (fb : Frame) (p : Pixel) : Bool := fb[p.2].getLsbD p.1

/-- FB[c, r] <- FB[c, r] XOR 1. -/
def frameFlip (fb : Frame) (p : Pixel) : Frame := fb.set p.2 (fb[p.2] ^^^ BitVec.twoPow 64 p.1)

/-- Every pixel unset (R170). -/
def blankFrame : Frame := Vector.replicate 32 0

/-- Write FB. -/
def State.setFb (s : State) (fb : Frame) : State := { s with fb := fb }

/-! ## The random input (R232) -/

/-- The step's random byte. -/
def State.randByte (s : State) : Byte := Config.randByte s.draws

/-- The draw is used up: the next one is another free value. -/
def State.nextDraw (s : State) : State := { s with draws := s.draws + 1 }

/-! ## Faults (spec/60_exceptions.md) -/

/-- The numeric code of a fault kind (R210). -/
def Fault.code : Fault → Nat
  | .unknownOpcode => 1
  | .stackUnderflow => 2
  | .stackOverflow => 3
  | .memoryOutOfBounds _ => 4
  | .keyIndexOutOfRange _ => 5

/-- The info of a fault record: the address or the key (R217). -/
def Fault.info : Fault → Option Nat
  | .unknownOpcode => none
  | .stackUnderflow => none
  | .stackOverflow => none
  | .memoryOutOfBounds addr => some addr
  | .keyIndexOutOfRange key => some key.toNat

/-- Taking a fault: the record is kept, the block halts, and nothing else changes (R216, R221). -/
def State.raise (s : State) (f : Fault) (word : Option Word) : State :=
  { s with halted := true, fault := some { kind := f, pc := s.pc, word := word } }

/-- The outcome of an instruction that raises a fault while it executes: its own word is recorded (R217). -/
def raiseIn (i : Instr) (f : Fault) (s : State) : Host.Outcome State Fault Refusal :=
  .next (s.raise f (some (encode i)))

/-! ## Fetch and decode (R70, R71) -/

/-- The two bytes of the word at an address, joined (R71). -/
def State.wordAt (s : State) (a : Nat) : Word := joinBytes (s.byteAt a) (s.byteAt (a + 1))

/-- What the fetch and the decode of a step find. -/
inductive Fetched where
  | instr (i : Instr)
  | raised (f : Fault) (word : Option Word)
  deriving DecidableEq, Repr

/-- Fetch at pc and decode, in the order of R219: the two addresses, then the word. -/
def State.fetch (s : State) : Fetched :=
  match boundsFault s.pc.toNat 2 with
  | some f => .raised f none
  | none =>
    match decode (s.wordAt s.pc.toNat) with
    | none => .raised .unknownOpcode (some (s.wordAt s.pc.toNat))
    | some i => .instr i

/-- The state with a word stored where the next step fetches: the block is made runnable (not halted) and, where pc
has no two bytes to fetch from, pc is moved to the reset vector. Nothing else changes. -/
def State.placeWord (s : State) (w : Word) : State :=
  let pc : Word := if s.pc.toNat + 1 < 4096 then s.pc else 0x0200
  { s.storeBytes pc.toNat [highByte w, lowByte w] with pc := pc, halted := false, fault := none }

end Sys2Proof.Machine
end

