-- ==== Sys2Proof/Machine/Operands.lean ====
section
/-! DEFINITION. The operand forms: immediates, the index-plus-offset addressing mode, register lists, decimal digits,
font glyphs, key indices, sprite coordinates (spec/30_encoding.md R80; spec/42_index_memory.md R152 to R156;
spec/44_keys_timers.md R192, R196; spec/43_draw_engine.md R171). -/

namespace Sys2Proof.Machine

/-- A 12-bit address as a 16-bit value (R80). -/
def zext16 (nnn : Addr12) : Word := nnn.setWidth 16

/-- A byte as a 16-bit value (R8). -/
def byteZext16 (b : Byte) : Word := b.setWidth 16

/-- The address of the first byte of a transfer through I, a natural number (R54, R156). -/
def State.indexBase (s : State) : Nat := s.i.toNat

/-- The values of V[0], ..., V[x] (R154). -/
def State.regsUpTo (s : State) (x : Index) : List Byte := s.v.toList.take (x.val + 1)

/-- The decimal digits of a byte: hundreds, tens, units (R153). -/
def bcdDigits (a : Byte) : List Byte :=
  [BitVec.ofNat 8 (a.toNat / 100), BitVec.ofNat 8 (a.toNat / 10 % 10), BitVec.ofNat 8 (a.toNat % 10)]

/-- The digit that Fx29 uses, under P_FX29_WIDE (R152). -/
def fontDigit (wide : Fx29Wide) (v : Byte) : Nat :=
  match wide with
  | .lowNibble => (v &&& 0x0F#8).toNat
  | .unmasked => v.toNat

/-- The address of a digit's glyph, masked to 12 bits (R152). -/
def glyphAddress (d : Nat) : Word := BitVec.ofNat 16 (0x050 + 5 * d) &&& 0x0FFF#16

/-- The pressed state of the key a byte names; none when the byte is no key index (R196). -/
def State.keyAt (s : State) (k : Byte) : Option Bool := s.keys[k.toNat]?

/-- The keys from index k on, in rising order: the first pressed one. -/
def firstPressed : List Bool → Nat → Option Nat
  | [], _ => none
  | down :: rest, k => if down then some k else firstPressed rest (k + 1)

/-- The lowest-indexed pressed key, min(P) of R192, if any key is pressed. -/
def State.lowestKey (s : State) : Option Nat := firstPressed s.keys.toList 0

/-- The registers that Dxyn reads its coordinates from: under P_VF_ORDER = sequential VF has been reset (R171). -/
def State.drawRegs (s : State) : Vector Byte 16 :=
  match s.params.vfOrder with
  | .sequential => s.v.set VF 0x00
  | .asListed => s.v
  | .flagLast => s.v

/-- The positions of the set bits of one sprite byte drawn from column cx on row py, leftmost first (R171). -/
def rowPixels (cx py : Nat) (row : Byte) : List Pixel :=
  (List.range 8).filterMap fun c =>
    if row.getLsbD (7 - c) then some (Fin.ofNat 64 (cx + c), Fin.ofNat 32 py) else none

/-- The positions of the set bits of a sprite, top row first: S of R172, in the loop order of R171. -/
def spritePixels (cx cy : Nat) : List Byte → List Pixel
  | [] => []
  | row :: rows => rowPixels cx cy row ++ spritePixels cx (cy + 1) rows

end Sys2Proof.Machine
end

