-- ==== Sys2Proof/Machine/Flags.lean ====
section
/-! DEFINITION. The flag computations (spec/41_register_alu.md R127 to R131, R133; spec/43_draw_engine.md R171) and the
shared flag-and-result write (R120, R134). -/

namespace Sys2Proof.Machine

/-- A condition as a flag: 1 or 0 (R21). -/
def flag (c : Bool) : Byte := if c then 0x01 else 0x00

/-- The carry of an 8-bit addition (R127). -/
def carryFlag (a b : Byte) : Byte := flag (decide (a.toNat + b.toNat > 255))

/-- No borrow in a - b (R128, R130). -/
def noBorrowFlag (a b : Byte) : Byte := flag (decide (a.toNat ≥ b.toNat))

/-- The bit a right shift puts out (R129). -/
def lowBitFlag (a : Byte) : Byte := a &&& 0x01#8

/-- The bit a left shift puts out (R131). -/
def highBitFlag (a : Byte) : Byte := (a >>> 7) &&& 0x01#8

/-- WriteResultAndFlag (R120): the result to V[x] and the flag to VF, in the order P_VF_ORDER names. seqResult is
SeqResult of R134, a function of the registers as they stand after the flag write. -/
def State.writeResultAndFlag (s : State) (x : Index) (result flag : Byte) (seqResult : State → Byte) : State :=
  match s.params.vfOrder with
  | .asListed => (s.setV VF flag).setV x result
  | .flagLast => (s.setV x result).setV VF flag
  | .sequential => (s.setV VF flag).setV x (seqResult (s.setV VF flag))

/-- XOR the listed positions into the frame buffer one by one; hit becomes true when a set pixel is turned off
(R171). -/
def drawPixels : Frame → Bool → List Pixel → Frame × Bool
  | fb, hit, [] => (fb, hit)
  | fb, hit, p :: ps => drawPixels (frameFlip fb p) (hit || framePixel fb p) ps

end Sys2Proof.Machine
end

