-- ==== Sys2Proof/Machine/Alu.lean ====
section
/-! DEFINITION. The register-file ALU: 6xnn, 7xnn, 8xy0 to 8xy7, 8xyE, Cxnn (spec/41_register_alu.md). -/

namespace Sys2Proof.Machine

/-- 6xnn LD Vx, nn (R121). -/
def execLdImm (x : Index) (nn : Byte) (s : State) : Host.Outcome State Fault Refusal :=
  .next (s.setV x nn).advance

/-- 7xnn ADD Vx, nn (R122). -/
def execAddImm (x : Index) (nn : Byte) (s : State) : Host.Outcome State Fault Refusal :=
  .next (s.setV x (s.getV x + nn)).advance

/-- 8xy0 LD Vx, Vy (R123). -/
def execLdReg (x y : Index) (s : State) : Host.Outcome State Fault Refusal :=
  .next (s.setV x (s.getV y)).advance

/-- 8xy1 OR Vx, Vy (R124). -/
def execOrReg (x y : Index) (s : State) : Host.Outcome State Fault Refusal :=
  .next (s.setV x (s.getV x ||| s.getV y)).advance

/-- 8xy2 AND Vx, Vy (R125). -/
def execAndReg (x y : Index) (s : State) : Host.Outcome State Fault Refusal :=
  .next (s.setV x (s.getV x &&& s.getV y)).advance

/-- 8xy3 XOR Vx, Vy (R126). -/
def execXorReg (x y : Index) (s : State) : Host.Outcome State Fault Refusal :=
  .next (s.setV x (s.getV x ^^^ s.getV y)).advance

/-- 8xy4 ADD Vx, Vy (R127). The sum is computed before the VF write under every order (R134). -/
def execAddReg (x y : Index) (s : State) : Host.Outcome State Fault Refusal :=
  .next (s.writeResultAndFlag x (s.getV x + s.getV y) (carryFlag (s.getV x) (s.getV y))
    (fun _ => s.getV x + s.getV y)).advance

/-- 8xy5 SUB Vx, Vy (R128, R134). -/
def execSub (x y : Index) (s : State) : Host.Outcome State Fault Refusal :=
  .next (s.writeResultAndFlag x (s.getV x - s.getV y) (noBorrowFlag (s.getV x) (s.getV y))
    (fun s' => s'.getV x - s'.getV y)).advance

/-- 8xy6 SHR Vx (R129, R134). -/
def execShr (x : Index) (s : State) : Host.Outcome State Fault Refusal :=
  .next (s.writeResultAndFlag x (s.getV x >>> 1) (lowBitFlag (s.getV x)) (fun s' => s'.getV x >>> 1)).advance

/-- 8xy7 SUBN Vx, Vy (R130, R134). -/
def execSubn (x y : Index) (s : State) : Host.Outcome State Fault Refusal :=
  .next (s.writeResultAndFlag x (s.getV y - s.getV x) (noBorrowFlag (s.getV y) (s.getV x))
    (fun s' => s'.getV y - s'.getV x)).advance

/-- 8xyE SHL Vx (R131, R134). -/
def execShl (x : Index) (s : State) : Host.Outcome State Fault Refusal :=
  .next (s.writeResultAndFlag x (s.getV x <<< 1) (highBitFlag (s.getV x)) (fun s' => s'.getV x <<< 1)).advance

/-- Cxnn RND Vx, nn (R132). -/
def execRnd (x : Index) (nn : Byte) (s : State) : Host.Outcome State Fault Refusal :=
  .next (s.setV x (s.randByte &&& nn)).nextDraw.advance

end Sys2Proof.Machine
end

