-- ==== Sys2Proof/Machine/Draw.lean ====
section
/-! DEFINITION. The frame-buffer XOR-draw engine: 00E0, Dxyn (spec/43_draw_engine.md). -/

namespace Sys2Proof.Machine

/-- 00E0 CLS (R170). -/
def execCls (s : State) : Host.Outcome State Fault Refusal := .next (s.setFb blankFrame).advance

/-- The positions that Dxyn XORs: the set bits of the n sprite bytes at I, drawn from (V[x], V[y]) (R171). -/
def State.drawnPixels (s : State) (x y n : Index) : List Pixel :=
  spritePixels s.drawRegs[x].toNat s.drawRegs[y].toNat (s.bytesAt s.indexBase n.val)

/-- Dxyn DRW Vx, Vy, n (R171). -/
def execDrw (x y n : Index) (s : State) : Host.Outcome State Fault Refusal :=
  match boundsFault s.indexBase n.val with
  | some f => raiseIn (.drw x y n) f s
  | none =>
    .next ((s.setFb (drawPixels s.fb false (s.drawnPixels x y n)).1).setV VF
      (flag (drawPixels s.fb false (s.drawnPixels x y n)).2)).advance

end Sys2Proof.Machine
end

