-- ==== Sys2Proof/Machine/KeysTimers.lean ====
section
/-! DEFINITION. The key-state and timer instructions: Ex9E, ExA1, Fx0A, Fx07, Fx15, Fx18 (spec/44_keys_timers.md). -/

namespace Sys2Proof.Machine

/-- Ex9E SKP Vx (R190, R196). -/
def execSkp (x : Index) (s : State) : Host.Outcome State Fault Refusal :=
  match s.keyAt (s.getV x) with
  | some down => .next (s.skipIf down)
  | none => raiseIn (.skp x) (.keyIndexOutOfRange (s.getV x)) s

/-- ExA1 SKNP Vx (R191, R196). -/
def execSknp (x : Index) (s : State) : Host.Outcome State Fault Refusal :=
  match s.keyAt (s.getV x) with
  | some down => .next (s.skipIf (!down))
  | none => raiseIn (.sknp x) (.keyIndexOutOfRange (s.getV x)) s

/-- Fx0A LD Vx, K (R192): with no key pressed nothing changes, pc included. -/
def execLdVxK (x : Index) (s : State) : Host.Outcome State Fault Refusal :=
  match s.lowestKey with
  | some k => .next (s.setV x (BitVec.ofNat 8 k)).advance
  | none => .next s

/-- Fx07 LD Vx, DT (R193). -/
def execLdVxDt (x : Index) (s : State) : Host.Outcome State Fault Refusal := .next (s.setV x s.dt).advance

/-- Fx15 LD DT, Vx (R194). -/
def execLdDtVx (x : Index) (s : State) : Host.Outcome State Fault Refusal := .next (s.setDt (s.getV x)).advance

/-- Fx18 LD ST, Vx (R195). -/
def execLdStVx (x : Index) (s : State) : Host.Outcome State Fault Refusal := .next (s.setSt (s.getV x)).advance

end Sys2Proof.Machine
end

