-- ==== Sys2Proof/Machine/Sequencer.lean ====
section
/-! DEFINITION. The program-counter sequencer: 00EE, 1nnn, 2nnn, 3xnn, 4xnn, 5xy0, 9xy0, Bnnn
(spec/40_pc_sequencer.md). -/

namespace Sys2Proof.Machine

/-- 00EE RET (R100). -/
def execRet (s : State) : Host.Outcome State Fault Refusal :=
  match s.stack.getLast? with
  | some v => .next (s.dropTop.setPc v)
  | none => raiseIn .ret .stackUnderflow s

/-- 1nnn JP nnn (R101). -/
def execJp (nnn : Addr12) (s : State) : Host.Outcome State Fault Refusal := .next (s.setPc (zext16 nnn))

/-- 2nnn CALL nnn (R102). -/
def execCall (nnn : Addr12) (s : State) : Host.Outcome State Fault Refusal :=
  if s.stackFull then raiseIn (.call nnn) .stackOverflow s
  else .next ((s.push (s.pc + 2)).setPc (zext16 nnn))

/-- 3xnn SE Vx, nn (R103). -/
def execSeImm (x : Index) (nn : Byte) (s : State) : Host.Outcome State Fault Refusal :=
  .next (s.skipIf (s.getV x == nn))

/-- 4xnn SNE Vx, nn (R104). -/
def execSneImm (x : Index) (nn : Byte) (s : State) : Host.Outcome State Fault Refusal :=
  .next (s.skipIf (s.getV x != nn))

/-- 5xy0 SE Vx, Vy (R105). -/
def execSeReg (x y : Index) (s : State) : Host.Outcome State Fault Refusal :=
  .next (s.skipIf (s.getV x == s.getV y))

/-- 9xy0 SNE Vx, Vy (R106). -/
def execSneReg (x y : Index) (s : State) : Host.Outcome State Fault Refusal :=
  .next (s.skipIf (s.getV x != s.getV y))

/-- Bnnn JP V0, nnn (R107). -/
def execJpV0 (nnn : Addr12) (s : State) : Host.Outcome State Fault Refusal :=
  .next (s.setPc (zext16 nnn + byteZext16 (s.getV 0)))

end Sys2Proof.Machine
end

