-- ==== Sys2Proof/Machine/Transfer.lean ====
section
/-! DEFINITION. The index register and the memory transfers: Annn, Fx1E, Fx29, Fx33, Fx55, Fx65
(spec/42_index_memory.md). -/

namespace Sys2Proof.Machine

/-- Annn LD I, nnn (R150). -/
def execLdI (nnn : Addr12) (s : State) : Host.Outcome State Fault Refusal := .next (s.setI (zext16 nnn)).advance

/-- Fx1E ADD I, Vx (R151). -/
def execAddI (x : Index) (s : State) : Host.Outcome State Fault Refusal :=
  .next (s.setI (s.i + byteZext16 (s.getV x))).advance

/-- Fx29 LD F, Vx (R152). -/
def execLdF (x : Index) (s : State) : Host.Outcome State Fault Refusal :=
  .next (s.setI (glyphAddress (fontDigit s.params.fx29Wide (s.getV x)))).advance

/-- Fx33 LD B, Vx (R153). -/
def execLdB (x : Index) (s : State) : Host.Outcome State Fault Refusal :=
  match boundsFault s.indexBase 3 with
  | some f => raiseIn (.ldB x) f s
  | none => .next (s.storeBytes s.indexBase (bcdDigits (s.getV x))).advance

/-- Fx55 LD [I], Vx (R154). -/
def execLdMemVx (x : Index) (s : State) : Host.Outcome State Fault Refusal :=
  match boundsFault s.indexBase (x.val + 1) with
  | some f => raiseIn (.ldMemVx x) f s
  | none => .next (s.storeBytes s.indexBase (s.regsUpTo x)).advance

/-- Fx65 LD Vx, [I] (R155). -/
def execLdVxMem (x : Index) (s : State) : Host.Outcome State Fault Refusal :=
  match boundsFault s.indexBase (x.val + 1) with
  | some f => raiseIn (.ldVxMem x) f s
  | none => .next (s.loadV (s.bytesAt s.indexBase (x.val + 1))).advance

end Sys2Proof.Machine
end

