-- ==== Sys2Proof/Machine/Step.lean ====
section
/-! DEFINITION. One step of the block (spec/30_encoding.md R70), and where the next instruction is fetched from. -/

namespace Sys2Proof.Machine

/-- Step of R70: a halted block does nothing (R216); otherwise fetch, decode, execute. -/
def step (s : State) : Host.Outcome State Fault Refusal :=
  if s.halted then .next s
  else
    match s.fetch with
    | .raised f word => .next (s.raise f word)
    | .instr i => exec i s

/-- s with an opcode-table word stored at pc, so that step fetches and runs it (assumption 8). -/
def State.withFetchWord (s : State) (nbits w : Nat) : State := s.placeWord (tableWord nbits w)

end Sys2Proof.Machine
end

