-- ==== Sys2Proof/Machine/HostOps.lean ====
section
/-! DEFINITION. What the host does to the block besides stepping it: reset, load, tick, and the key inputs, and the
outputs it reads (spec/60_exceptions.md R225 to R238; spec/70_reset_and_hazards.md R250 to R255; assumption 9). -/

namespace Sys2Proof.Machine

/-- A timer one tick later, floored at 0 (R225). -/
def countDown (b : Byte) : Byte := if b = 0x00 then 0x00 else b - 1

/-- tickTimers (R225). It does not look at halted (R227). -/
def State.tick (s : State) : State := { s with dt := countDown s.dt, st := countDown s.st }

/-- The result of a load (R253, R254); LoadError has code 16 and carries the size (R210, R218). -/
inductive LoadResult where
  | ok
  | loadError (size : Nat)
  deriving DecidableEq, Repr

/-- The numeric code of LoadError (R210). -/
def loadErrorCode : Nat := 16

/-- loadProgram: copy the image to 0x200, or reject it and write nothing (R253, R254). -/
def State.load (s : State) (image : List Byte) : State × LoadResult :=
  if imageWellFormed image then (s.storeBytes 0x200 image, .ok) else (s, .loadError image.length)

/-- The reset operation (R250): a fresh frame-buffer draw; the key inputs and the parameters stay. -/
def State.hostReset (s : State) : State :=
  .resetWith s.params (Config.resetFrame s.draws) s.keys (s.draws + 1)

/-- The key collaborator sets one key's level (R231). -/
def State.setKey (s : State) (k : Index) (down : Bool) : State := { s with keys := s.keys.set k down }

/-- The sound output (R233). -/
def State.sound (s : State) : Bool := s.st != 0x00

/-- What a host's step gives: the state after it and the fault record it reports, if the block is halted (R216,
R230). -/
def State.stepReport (s : State) : State × Option FaultRecord :=
  match step s with
  | .next t => (t, t.fault)
  | .fault _ => (s, s.fault)
  | .refused _ => (s, s.fault)

/-- The host's operations (R230, R238). There is none that writes other state than the keys, and none that acts during
another operation. -/
inductive HostOp where
  | reset
  | load (image : List Byte)
  | step
  | tick
  | setKey (k : Index) (down : Bool)
  deriving DecidableEq, Repr

/-- The block in the hands of its host. -/
structure Session where
  /-- The block as it stands between two operations. -/
  block : State
  /-- No step has come since the last reset, so that a load may come now (R255). -/
  mayLoad : Bool
  deriving DecidableEq, Repr

/-- A block that has just been reset. -/
def Session.start : Session := { block := State.reset, mayLoad := true }

/-- One operation of the host, or none where the host has no such move: a load after the first step (R238, R255). -/
def Session.move (h : Session) : HostOp → Option Session
  | .reset => some { block := h.block.hostReset, mayLoad := true }
  | .load image => if h.mayLoad then some { h with block := (h.block.load image).1 } else none
  | .step => some { block := h.block.stepReport.1, mayLoad := false }
  | .tick => some { h with block := h.block.tick }
  | .setKey k down => some { h with block := h.block.setKey k down }

/-- A sequence of operations, in order and in any interleaving (R226); none where one of them is no move of the host. -/
def runOps (h : Session) : List HostOp → Option Session
  | [] => some h
  | op :: ops => (h.move op).bind fun g => runOps g ops

/-- The sequences R238 and R255 give the host: a load only after a reset and before the first step. mayLoad says
whether a load may come now. The sequences that runOps carries out are these (Laws/HostOps.lean). -/
def lawfulOps : Bool → List HostOp → Bool
  | _, [] => true
  | _, .reset :: ops => lawfulOps true ops
  | mayLoad, .load _ :: ops => mayLoad && lawfulOps mayLoad ops
  | _, .step :: ops => lawfulOps false ops
  | mayLoad, .tick :: ops => lawfulOps mayLoad ops
  | mayLoad, .setKey _ _ :: ops => lawfulOps mayLoad ops

end Sys2Proof.Machine
end

