-- ==== Sys2Proof/Safety.lean ====
section
/-! DEFINITION. The terms claims use: the invariant, how a run stands (spec/60_exceptions.md R239), and what a step
leaves unchanged. -/

namespace Sys2Proof.Machine

/-! ## The invariant -/

/-- What holds at reset and is kept by every operation of the block. -/
structure State.Inv (s : State) : Prop where
  /-- Memory is in its canonical form. -/
  memory : Memory.wf s.params.font s.mem = true
  /-- The largest pc any instruction writes (spec/10_state.md R24). -/
  pcBound : s.pc.toNat ≤ 0x10FE
  /-- The stack's length is at most P_STACK_DEPTH (spec/10_state.md R27). -/
  stackBound : ∀ d, s.params.stackDepth = some d → s.stack.length ≤ d
  /-- A return address is at most 0x1000 (spec/40_pc_sequencer.md R102). -/
  returns : ∀ w ∈ s.stack, w.toNat ≤ 0x1000
  /-- halted and fault are set and cleared together (spec/10_state.md R34). -/
  status : s.halted = s.fault.isSome
  /-- pc still holds the faulting instruction's address (spec/60_exceptions.md R216, R217). -/
  faultPc : ∀ r, s.fault = some r → r.pc = s.pc

/-! ## How a run stands (R239) -/

/-- A halted state is faulted, never finished. -/
def State.faulted (s : State) : Bool := s.halted

/-- Not halted, at a self-jump 1nnn with nnn = pc, fetched from pc <= 0xFFE. -/
def State.finished (s : State) : Bool :=
  !s.halted && decide (s.pc.toNat ≤ 0xFFE) && decide (s.wordAt s.pc.toNat = 0x1000#16 + s.pc)

/-- Not halted, at an Fx0A with no key pressed. -/
def State.waiting (s : State) : Bool :=
  !s.halted && s.lowestKey == none &&
    match s.fetch with
    | .instr (.ldVxK _) => true
    | _ => false

/-! ## Frames -/

/-- The parts of the state, as the spec names them; status is halted with fault. -/
inductive Part where
  | v
  | i
  | pc
  | stack
  | dt
  | st
  | mem
  | fb
  | status
  | keys
  | draws
  | params
  deriving DecidableEq, Repr

/-- The part is the same in both states; memory is compared byte by byte over all addresses. -/
def Part.same (s t : State) : Part → Prop
  | .v => ∀ k, t.getV k = s.getV k
  | .i => t.i = s.i
  | .pc => t.pc = s.pc
  | .stack => t.stack = s.stack
  | .dt => t.dt = s.dt
  | .st => t.st = s.st
  | .mem => ∀ a, t.byteAt a = s.byteAt a
  | .fb => t.fb = s.fb
  | .status => t.halted = s.halted ∧ t.fault = s.fault
  | .keys => t.keys = s.keys
  | .draws => t.draws = s.draws
  | .params => t.params = s.params

/-- Every part but the listed ones is unchanged from s to t. -/
def KeepsAllBut (changed : List Part) (s t : State) : Prop := ∀ p, p ∉ changed → p.same s t

/-- Every V register but the listed ones is unchanged from s to t. -/
def KeepsRegsBut (changed : List Index) (s t : State) : Prop := ∀ k, k ∉ changed → t.getV k = s.getV k

/-- Every byte of memory outside the count bytes from address base is unchanged from s to t. -/
def KeepsBytesOutside (base count : Nat) (s t : State) : Prop :=
  ∀ a, (a < base ∨ base + count ≤ a) → t.byteAt a = s.byteAt a

/-- t is s halted by the fault f, recorded with pc and the given word, and nothing else changed (R216, R217). -/
def HaltsWith (f : Fault) (word : Option Word) (s t : State) : Prop :=
  t.halted = true ∧ t.fault = some { kind := f, pc := s.pc, word := word } ∧ KeepsAllBut [.status] s t

/-! ## What the spec says of an instruction as a whole -/

/-- The fetch at pc succeeds and the word decodes to i; the lower address holds the high byte (R71). -/
def State.Fetches (s : State) (i : Instr) : Prop :=
  s.pc.toNat + 1 < 4096 ∧ decode (s.byteAt s.pc.toNat ++ s.byteAt (s.pc.toNat + 1)) = some i

/-- How many bytes an instruction transfers through I; none for an instruction that reaches no memory (R50, R52). -/
def transferLength : Instr → Option Nat
  | .drw _ _ n => some n.val
  | .ldB _ => some 3
  | .ldMemVx x => some (x.val + 1)
  | .ldVxMem x => some (x.val + 1)
  | .cls | .ret | .jp _ | .call _ | .seImm _ _ | .sneImm _ _ | .seReg _ _ | .ldImm _ _ | .addImm _ _ | .ldReg _ _
  | .orReg _ _ | .andReg _ _ | .xorReg _ _ | .addReg _ _ | .sub _ _ | .shr _ | .subn _ _ | .shl _ | .sneReg _ _
  | .ldI _ | .jpV0 _ | .rnd _ _ | .skp _ | .sknp _ | .ldVxDt _ | .ldVxK _ | .ldDtVx _ | .ldStVx _ | .addI _
  | .ldF _ => none

/-- The registers an instruction may write, as the table of spec/10_state.md R22 lists them: V[x], V[0..x], or VF as
the flag. -/
def writesV (k : Index) : Instr → Bool
  | .ldImm x _ => k == x
  | .addImm x _ => k == x
  | .ldReg x _ => k == x
  | .orReg x _ => k == x
  | .andReg x _ => k == x
  | .xorReg x _ => k == x
  | .addReg x _ => k == x || k == VF
  | .sub x _ => k == x || k == VF
  | .shr x => k == x || k == VF
  | .subn x _ => k == x || k == VF
  | .shl x => k == x || k == VF
  | .rnd x _ => k == x
  | .ldVxDt x => k == x
  | .ldVxK x => k == x
  | .ldVxMem x => decide (k ≤ x)
  | .drw _ _ _ => k == VF
  | .cls | .ret | .jp _ | .call _ | .seImm _ _ | .sneImm _ _ | .seReg _ _ | .sneReg _ _ | .ldI _ | .jpV0 _ | .skp _
  | .sknp _ | .ldDtVx _ | .ldStVx _ | .addI _ | .ldF _ | .ldB _ | .ldMemVx _ => false

/-- The same state of a block with another P_VF_ORDER (R120). -/
def State.withVfOrder (s : State) (o : VfOrder) : State := { s with params := { s.params with vfOrder := o } }

/-- The coordinate Dxyn reads from V[x]: under P_VF_ORDER = sequential VF has been reset to 0 before (R171). -/
def drawCoordinate (s : State) (x : Index) : Nat :=
  if s.params.vfOrder = .sequential ∧ x = VF then 0 else (s.getV x).toNat

/-- The position p is one a sprite of n rows at I sets when drawn from column cx and row cy: bit 7 - c of row r is 1,
and p is ((cx + c) mod 64, (cy + r) mod 32) (R171; S of R172). -/
def SpriteCovers (s : State) (cx cy n : Nat) (p : Pixel) : Prop :=
  ∃ r c, r < n ∧ c < 8 ∧ (s.byteAt (s.i.toNat + r)).getLsbD (7 - c) = true ∧
    p.1.val = (cx + c) % 64 ∧ p.2.val = (cy + r) % 32

end Sys2Proof.Machine
end

