-- ==== Sys2Proof/Certificates/Slice0/Obligations.lean ====
section
/-! DEFINITION. The statements for the provers, from the numbered rules of spec/. Each holds for every value of the
parameters, which stand in the state, and of the free values, which have no body. -/

open Sys2Proof Sys2Proof.Machine

/-- The words 00E0, 00EE, 1ABC, 2400, 332A, 5120, 6A42, 81F5, 8F0E, A300, B300, C50F, D121, E29E, F30A, F133 and F265,
written out from the encodings, decode to their instructions, and 0000, 0123, 01E0, 5121, 9AB3, 8AB8, E19F and F1FF
are Unknown. That every literal digit must match is the decision D8 of the spec. [derived: 30_encoding.md section 2,
95_test_vectors.md L2] -/
def Obligations.SpecWordsDecode : Prop :=
  decode 0x00E0 = some .cls ∧ decode 0x00EE = some .ret ∧ decode 0x1ABC = some (.jp 0xABC) ∧
  decode 0x2400 = some (.call 0x400) ∧ decode 0x332A = some (.seImm 3 0x2A) ∧ decode 0x5120 = some (.seReg 1 2) ∧
  decode 0x6A42 = some (.ldImm 0xA 0x42) ∧ decode 0x81F5 = some (.sub 1 0xF) ∧ decode 0x8F0E = some (.shl 0xF) ∧
  decode 0xA300 = some (.ldI 0x300) ∧ decode 0xB300 = some (.jpV0 0x300) ∧ decode 0xC50F = some (.rnd 5 0x0F) ∧
  decode 0xD121 = some (.drw 1 2 1) ∧ decode 0xE29E = some (.skp 2) ∧ decode 0xF30A = some (.ldVxK 3) ∧
  decode 0xF133 = some (.ldB 1) ∧ decode 0xF265 = some (.ldVxMem 2) ∧
  decode 0x0000 = none ∧ decode 0x0123 = none ∧ decode 0x01E0 = none ∧ decode 0x5121 = none ∧
  decode 0x9AB3 = none ∧ decode 0x8AB8 = none ∧ decode 0xE19F = none ∧ decode 0xF1FF = none

/-- For every instruction i, with every operand at every value its field admits, decode (encode i) is i. The ignored y
field of 8xy6 and 8xyE is no operand; the encoder writes it 0 (rule R82, the decision D20). [derived: 30_encoding.md
sections 2 and 3] -/
def Obligations.DecodeOfEncode : Prop :=
  ∀ i : Instr, decode (encode i) = some i

/-- For every word w that decodes to i: the word of i is w, except where i is SHR or SHL, where it is w with bits 7 to 4
cleared. That the encoder writes those bits 0 is the assembler's y = 0 of rule R82 (decision D20), taken for the
encoder by log entry 14. [derived: 30_encoding.md sections 2 and 3] -/
def Obligations.EncodeOfDecode : Prop :=
  ∀ (w : Word) (i : Instr), decode w = some i →
    ((∃ x, i = .shr x ∨ i = .shl x) → encode i = w &&& 0xFF0F) ∧
    ((∀ x, i ≠ .shr x ∧ i ≠ .shl x) → encode i = w)

/-- For every row of the opcode table and every word: the word matches all literal digits of the row exactly when it
decodes to an instruction of that row; and a word decodes to nothing exactly when it matches no row. That every
literal digit must match is the decision D8 of the spec. [derived: 30_encoding.md section 2] -/
def Obligations.DecodeFollowsTable : Prop :=
  (∀ (w : Word), ∀ r ∈ opcodeTable, r.covers w = true ↔ ∃ i, decode w = some i ∧ i.mnemonic = r.mnemonic) ∧
  ∀ w : Word, decode w = none ↔ ∀ r ∈ opcodeTable, r.covers w = false

/-- For all x and y, 8xy6 decodes to SHR Vx and 8xyE to SHL Vx; and two different words that decode to the same
instruction are both 8xy6 or both 8xyE words of it. [derived: 30_encoding.md section 3] -/
def Obligations.ShiftsIgnoreTheirYField : Prop :=
  (∀ x y : Index, decode (encodeFR 0x8 x y 0x6) = some (.shr x) ∧ decode (encodeFR 0x8 x y 0xE) = some (.shl x)) ∧
  ∀ (w w' : Word) (i : Instr), decode w = some i → decode w' = some i → w ≠ w' → ∃ x, i = .shr x ∨ i = .shl x

/-- When the block is not halted, pc and pc+1 are below 4096, and the big-endian word of mem[pc] and mem[pc+1] decodes
to i, the step is exec of i at that state; the step adds nothing around exec. [derived: 30_encoding.md section 1] -/
def Obligations.StepRunsDecodedInstruction : Prop :=
  ∀ (s : State) (i : Instr), s.halted = false → s.Fetches i → step s = exec i s

/-- When the block is not halted, the fetch succeeds and the word matches no row of the opcode table, the step answers
the state halted by UnknownOpcode (code 1) with pc and the word recorded, and nothing else changes. The code, the
halt, the absence of other effects and the match of every literal digit are the decisions D6, D7, D5 and D8 of the
spec. [derived: 30_encoding.md section 2, 60_exceptions.md section 1] -/
def Obligations.UnknownWordHalts : Prop :=
  ∀ s : State, s.halted = false → s.pc.toNat + 1 < 4096 →
    wordWellFormed (s.byteAt s.pc.toNat ++ s.byteAt (s.pc.toNat + 1)) = false →
    Fault.unknownOpcode.code = 1 ∧
    ∃ t, step s = .next t ∧
      HaltsWith .unknownOpcode (some (s.byteAt s.pc.toNat ++ s.byteAt (s.pc.toNat + 1))) s t

/-- When the block is not halted: for pc of 4096 or more the step answers the state halted by MemoryOutOfBounds at pc,
for pc = 0xFFF by MemoryOutOfBounds at 4096, with no word recorded, and nothing else changes. The halt, the absence
of other effects and the order of the two checks are the decisions D7, D5 and D29 of the spec. [derived:
30_encoding.md section 1, 60_exceptions.md section 1] -/
def Obligations.FetchOutOfBoundsHalts : Prop :=
  ∀ s : State, s.halted = false →
    (4096 ≤ s.pc.toNat → ∃ t, step s = .next t ∧ HaltsWith (.memoryOutOfBounds s.pc.toNat) none s t) ∧
    (s.pc = 0xFFF → ∃ t, step s = .next t ∧ HaltsWith (.memoryOutOfBounds 4096) none s t)

/-- For every halted state the step answers that very state, and the host is given the record already there (the halt is
the decision D7 of the spec). [derived: 60_exceptions.md section 1] -/
def Obligations.HaltedStepReportsAgain : Prop :=
  ∀ s : State, s.halted = true → step s = .next s ∧ s.stepReport = (s, s.fault)

/-- From every state, halted or not, step answers a next state; it never ends in an outcome without a state. That a
fault is taken as a next state is the model's reading of rule R216 (log entry 1). [derived: 60_exceptions.md section
1] -/
def Obligations.StepAlwaysAnswersNext : Prop :=
  ∀ s : State, ∃ t, step s = .next t

/-- Whenever a step of a block that is not halted answers a halted state, that state is the old one with only halted and
the fault record changed, and the record names the old pc. That nothing else changes is the decision D5 of the spec,
and the halt its decision D7. [derived: 00_scope.md section 4, 60_exceptions.md section 1] -/
def Obligations.FaultingStepChangesNothingElse : Prop :=
  ∀ s t : State, s.halted = false → step s = .next t → t.halted = true → ∃ f word, HaltsWith f word s t

/-- Whenever a step of a block that is not halted answers a halted state, the host is given a record whose pc is the old
pc and whose word is the two bytes fetched at it, or none where the fetch itself is out of range; the info is the
address of MemoryOutOfBounds (code 4), the key of KeyIndexOutOfRange (code 5), and empty for the others (codes 1, 2,
3). The codes are the decision D6 of the spec; that the word is computed from the instruction is log entry 11.
[derived: 60_exceptions.md section 1] -/
def Obligations.FaultRecordNamesTheInstruction : Prop :=
  ∀ s t : State, s.halted = false → step s = .next t → t.halted = true →
    ∃ r : FaultRecord, t.fault = some r ∧ s.stepReport = (t, some r) ∧ r.pc = s.pc ∧
      r.word = (if s.pc.toNat + 1 < 4096 then some (s.byteAt s.pc.toNat ++ s.byteAt (s.pc.toNat + 1)) else none) ∧
      (match r.kind with
        | .unknownOpcode => r.kind.code = 1 ∧ r.kind.info = none
        | .stackUnderflow => r.kind.code = 2 ∧ r.kind.info = none
        | .stackOverflow => r.kind.code = 3 ∧ r.kind.info = none
        | .memoryOutOfBounds a => r.kind.code = 4 ∧ r.kind.info = some a
        | .keyIndexOutOfRange k => r.kind.code = 5 ∧ r.kind.info = some k.toNat)

/-- When a step of a block that is not halted answers a state halted by f: UnknownOpcode needs an Unknown word;
StackUnderflow an 00EE with an empty stack; StackOverflow a 2nnn with P_STACK_DEPTH entries; MemoryOutOfBounds at a
needs a fetch out of range with a the first bad address, or a Dxyn, Fx33, Fx55 or Fx65 whose bytes pass 0xFFF, with
a = max(I, 4096); KeyIndexOutOfRange an Ex9E or ExA1 with V[x] > 0xF. StackOverflow and KeyIndexOutOfRange are the
decisions D4 and D9 of the spec, and the halt its decision D7. [derived: 60_exceptions.md section 1] -/
def Obligations.OnlyTheListedCausesHalt : Prop :=
  ∀ (s t : State) (f : Fault) (pc : Word) (word : Option Word), s.halted = false → step s = .next t →
    t.halted = true → t.fault = some { kind := f, pc := pc, word := word } →
    (match f with
      | .unknownOpcode => s.pc.toNat + 1 < 4096 ∧
          wordWellFormed (s.byteAt s.pc.toNat ++ s.byteAt (s.pc.toNat + 1)) = false
      | .stackUnderflow => s.Fetches .ret ∧ s.stack = []
      | .stackOverflow => (∃ nnn, s.Fetches (.call nnn)) ∧ s.params.stackDepth = some s.stack.length
      | .memoryOutOfBounds a =>
          (4096 ≤ s.pc.toNat + 1 ∧ a = max s.pc.toNat 4096) ∨
            ∃ i n, s.Fetches i ∧ transferLength i = some n ∧ 0 < n ∧ 4096 < s.i.toNat + n ∧ a = max s.i.toNat 4096
      | .keyIndexOutOfRange k =>
          0xF < k.toNat ∧ ∃ x, (s.Fetches (.skp x) ∨ s.Fetches (.sknp x)) ∧ s.getV x = k)

/-- State.reset meets State.Inv: canonical memory, pc at most 0x10FE, stack within P_STACK_DEPTH, return addresses at
most 0x1000, halted and fault set together, a fault record naming pc. The canonical form is the model's (log entry
7); the cap of the stack is the decision D4 of the spec, and halted with its record the decision D7. [derived:
10_state.md section 7, 70_reset_and_hazards.md section 1] -/
def Obligations.ResetMeetsInvariant : Prop :=
  State.reset.Inv

/-- For every state that meets State.Inv, the state the step answers meets it: memory stays canonical and within
0x000..0xFFF, pc never passes 0x10FE, the stack never passes P_STACK_DEPTH, every return address is at most 0x1000,
halted holds exactly when there is a fault record, and the record names pc. The canonical form is the model's (log
entry 7); the cap of the stack is the decision D4 of the spec, and halted with its record the decision D7. [derived:
10_state.md sections 2, 3 and 6, 20_memory.md section 2, 60_exceptions.md section 1] -/
def Obligations.StepKeepsInvariant : Prop :=
  ∀ s t : State, s.Inv → step s = .next t → t.Inv

/-- From every state that meets State.Inv, whether or not a load may come now, after any sequence of moves the host has
(resets, steps, ticks and key changes in any interleaving, and loads after a reset and before the first step), the
state meets it. The canonical form is the model's (log entry 7), that the host's operations stand beside the step is
log entry 9, and the stack's cap, the halt, the interleaving and the time of a load are the decisions D4, D7, D16
and D19 of the spec. [derived: 10_state.md sections 2, 3 and 6, 60_exceptions.md sections 4 and 6,
70_reset_and_hazards.md sections 1 and 2] -/
def Obligations.RunsKeepInvariant : Prop :=
  ∀ (ops : List HostOp) (h g : Session), h.block.Inv → runOps h ops = some g → g.block.Inv

/-- For every state, the state the step answers has the same key levels and the same parameters. That the parameters
stand in the state is the model's choice (log entry 2). [derived: 10_state.md section 4, 60_exceptions.md section 5] -/
def Obligations.StepNeverChangesInputs : Prop :=
  ∀ s t : State, step s = .next t → t.keys = s.keys ∧ t.params = s.params

/-- When exec answers a next state: I differs only after Annn, Fx1E or Fx29; DT only after Fx15; ST only after Fx18; the
stack only after 00EE or 2nnn. [derived: 10_state.md section 6] -/
def Obligations.OnlyListedInstructionsWriteSpecialRegisters : Prop :=
  ∀ (i : Instr) (s t : State), exec i s = .next t →
    (t.i ≠ s.i → (∃ nnn, i = .ldI nnn) ∨ ∃ x, i = .addI x ∨ i = .ldF x) ∧
    (t.dt ≠ s.dt → ∃ x, i = .ldDtVx x) ∧
    (t.st ≠ s.st → ∃ x, i = .ldStVx x) ∧
    (t.stack ≠ s.stack → i = .ret ∨ ∃ nnn, i = .call nnn)

/-- When exec answers a next state: some byte of memory differs only after Fx33 or Fx55, and the frame buffer differs
only after 00E0 or Dxyn. [derived: 10_state.md section 4, 20_memory.md section 1] -/
def Obligations.OnlyListedInstructionsWriteMemoryAndFrame : Prop :=
  ∀ (i : Instr) (s t : State), exec i s = .next t →
    ((∃ a, t.byteAt a ≠ s.byteAt a) → ∃ x, i = .ldB x ∨ i = .ldMemVx x) ∧
    (t.fb ≠ s.fb → i = .cls ∨ ∃ x y n, i = .drw x y n)

/-- When exec answers a next state, a general register differs only if it is V[x] of an instruction that writes V[x],
one of V[0..x] for Fx65, or VF for an instruction that writes VF as its flag. [derived: 10_state.md section 1] -/
def Obligations.OnlyListedInstructionsWriteV : Prop :=
  ∀ (i : Instr) (s t : State) (k : Index), exec i s = .next t → t.getV k ≠ s.getV k → writesV k i = true

/-- When exec answers a state that is not halted: pc is nnn for 1nnn and 2nnn, nnn + V0 for Bnnn, the top of the stack
for 00EE; pc + 2 or pc + 4 for the skips; pc or pc + 2 for Fx0A; and pc + 2 for every other instruction. [derived:
10_state.md section 2, 30_encoding.md section 2] -/
def Obligations.PcAdvancesAsListed : Prop :=
  ∀ (i : Instr) (s t : State), exec i s = .next t → t.halted = false →
    (match i with
      | .jp nnn => t.pc.toNat = nnn.toNat
      | .call nnn => t.pc.toNat = nnn.toNat
      | .jpV0 nnn => t.pc.toNat = nnn.toNat + (s.getV 0).toNat
      | .ret => s.stack.getLast? = some t.pc
      | .seImm _ _ | .sneImm _ _ | .seReg _ _ | .sneReg _ _ | .skp _ | .sknp _ =>
          t.pc = s.pc + 2 ∨ t.pc = s.pc + 4
      | .ldVxK _ => t.pc = s.pc ∨ t.pc = s.pc + 2
      | .cls | .ldImm _ _ | .addImm _ _ | .ldReg _ _ | .orReg _ _ | .andReg _ _ | .xorReg _ _ | .addReg _ _
      | .sub _ _ | .shr _ | .subn _ _ | .shl _ | .ldI _ | .rnd _ _ | .drw _ _ _ | .ldVxDt _ | .ldDtVx _ | .ldStVx _
      | .addI _ | .ldF _ | .ldB _ | .ldMemVx _ | .ldVxMem _ => t.pc = s.pc + 2)

/-- From every state: with a stack st ++ [v], 00EE completes with pc = v, stack = st and nothing else changed; with an
empty stack it answers the state halted by StackUnderflow (code 2), the stack still empty and pc still the address
of the 00EE. The code and the halt are the decisions D6 and D7 of the spec. [derived: 40_pc_sequencer.md, 00EE,
60_exceptions.md section 1] -/
def Obligations.RetReturnsOrUnderflows : Prop :=
  ∀ s : State,
    (∀ st v, s.stack = st ++ [v] →
      ∃ t, exec .ret s = .next t ∧ t.pc = v ∧ t.stack = st ∧ KeepsAllBut [.pc, .stack] s t) ∧
    (s.stack = [] → Fault.stackUnderflow.code = 2 ∧
      ∃ t, exec .ret s = .next t ∧ HaltsWith .stackUnderflow (some 0x00EE) s t)

/-- From every state, 1nnn completes with pc = nnn and Bnnn with pc = nnn + V0 as a natural number, unmasked; nothing
else changes, and no target is checked. [stated: R101, R107] -/
def Obligations.JumpsSetPc : Prop :=
  ∀ (nnn : Addr12) (s : State),
    (∃ t, exec (.jp nnn) s = .next t ∧ t.pc.toNat = nnn.toNat ∧ KeepsAllBut [.pc] s t) ∧
    (∃ t, exec (.jpV0 nnn) s = .next t ∧ t.pc.toNat = nnn.toNat + (s.getV 0).toNat ∧ KeepsAllBut [.pc] s t)

/-- From every state: when the stack does not hold P_STACK_DEPTH entries (never full when unbounded), 2nnn completes
with pc + 2 appended to the stack and pc = nnn, nothing else changed; when it does, it answers the state halted by
StackOverflow (code 3) with its own word, the stack as it was. The cap, the code and the halt are the decisions D4,
D6 and D7 of the spec. [derived: 40_pc_sequencer.md, 2nnn, 10_state.md section 3] -/
def Obligations.CallPushesOrOverflows : Prop :=
  ∀ (nnn : Addr12) (s : State),
    (s.params.stackDepth ≠ some s.stack.length →
      ∃ t, exec (.call nnn) s = .next t ∧ t.stack = s.stack ++ [s.pc + 2] ∧ t.pc.toNat = nnn.toNat ∧
        KeepsAllBut [.pc, .stack] s t) ∧
    (s.params.stackDepth = some s.stack.length → Fault.stackOverflow.code = 3 ∧
      ∃ t, exec (.call nnn) s = .next t ∧ HaltsWith .stackOverflow (some (0x2000#16 + nnn.setWidth 16)) s t)

/-- From every state, 3xnn completes with pc + 4 when V[x] = nn and pc + 2 otherwise, 4xnn the other way round; nothing
else changes. [stated: R103, R104] -/
def Obligations.SkipsCompareImmediate : Prop :=
  ∀ (x : Index) (nn : Byte) (s : State),
    (∃ t, exec (.seImm x nn) s = .next t ∧ t.pc = (if s.getV x = nn then s.pc + 4 else s.pc + 2) ∧
      KeepsAllBut [.pc] s t) ∧
    (∃ t, exec (.sneImm x nn) s = .next t ∧ t.pc = (if s.getV x ≠ nn then s.pc + 4 else s.pc + 2) ∧
      KeepsAllBut [.pc] s t)

/-- From every state, 5xy0 completes with pc + 4 when V[x] = V[y] and pc + 2 otherwise, 9xy0 the other way round;
nothing else changes, and the words 5xy1..5xyF and 9xy1..9xyF decode to no instruction. That the low nibble must
match is the decision D8 of the spec. [derived: 40_pc_sequencer.md, 5xy0 and 9xy0, 30_encoding.md section 2] -/
def Obligations.SkipsCompareRegisters : Prop :=
  (∀ (x y : Index) (s : State),
    (∃ t, exec (.seReg x y) s = .next t ∧ t.pc = (if s.getV x = s.getV y then s.pc + 4 else s.pc + 2) ∧
      KeepsAllBut [.pc] s t) ∧
    (∃ t, exec (.sneReg x y) s = .next t ∧ t.pc = (if s.getV x ≠ s.getV y then s.pc + 4 else s.pc + 2) ∧
      KeepsAllBut [.pc] s t)) ∧
  ∀ x y n : Index, n ≠ 0 → decode (encodeFR 0x5 x y n) = none ∧ decode (encodeFR 0x9 x y n) = none

/-- From every state, 6xnn completes with V[x] = nn, 7xnn with V[x] = (V[x] + nn) mod 256, 8xy0 with V[x] = V[y], pc +
2, every other register (VF too unless x = F) and everything else unchanged. [stated: R121, R122, R123] -/
def Obligations.ImmediateAndCopyLoads : Prop :=
  ∀ (x y : Index) (nn : Byte) (s : State),
    (∃ t, exec (.ldImm x nn) s = .next t ∧ t.getV x = nn ∧ t.pc = s.pc + 2 ∧ KeepsRegsBut [x] s t ∧
      KeepsAllBut [.v, .pc] s t) ∧
    (∃ t, exec (.addImm x nn) s = .next t ∧ (t.getV x).toNat = ((s.getV x).toNat + nn.toNat) % 256 ∧
      t.pc = s.pc + 2 ∧ KeepsRegsBut [x] s t ∧ KeepsAllBut [.v, .pc] s t) ∧
    (∃ t, exec (.ldReg x y) s = .next t ∧ t.getV x = s.getV y ∧ t.pc = s.pc + 2 ∧ KeepsRegsBut [x] s t ∧
      KeepsAllBut [.v, .pc] s t)

/-- From every state, 8xy1 completes with V[x] OR V[y] in V[x], 8xy2 with AND, 8xy3 with XOR, pc + 2, every other
register (VF too unless x = F) and everything else unchanged. That VF is not reset is derived in rule R124.
[derived: 41_register_alu.md section 3] -/
def Obligations.LogicOperationsLeaveTheFlag : Prop :=
  ∀ (x y : Index) (s : State),
    (∃ t, exec (.orReg x y) s = .next t ∧ (∀ b, b < 8 → (t.getV x).getLsbD b =
        ((s.getV x).getLsbD b || (s.getV y).getLsbD b)) ∧
      t.pc = s.pc + 2 ∧ KeepsRegsBut [x] s t ∧ KeepsAllBut [.v, .pc] s t) ∧
    (∃ t, exec (.andReg x y) s = .next t ∧ (∀ b, b < 8 → (t.getV x).getLsbD b =
        ((s.getV x).getLsbD b && (s.getV y).getLsbD b)) ∧
      t.pc = s.pc + 2 ∧ KeepsRegsBut [x] s t ∧ KeepsAllBut [.v, .pc] s t) ∧
    (∃ t, exec (.xorReg x y) s = .next t ∧ (∀ b, b < 8 → (t.getV x).getLsbD b =
        ((s.getV x).getLsbD b ^^ (s.getV y).getLsbD b)) ∧
      t.pc = s.pc + 2 ∧ KeepsRegsBut [x] s t ∧ KeepsAllBut [.v, .pc] s t)

/-- From every state, with f = 1 if V[x] + V[y] > 255 and 0 otherwise and r the sum mod 256: for x other than F, V[x] =
r and VF = f; for x = F, VF = f under flag_last and r under the other two settings. pc + 2, every other register and
everything else unchanged. The settings are the decision D3 of the spec. [derived: 41_register_alu.md sections 1, 3
and 6] -/
def Obligations.AddSetsCarry : Prop :=
  ∀ (x y : Index) (s : State) (f r : Nat),
    f = (if (s.getV x).toNat + (s.getV y).toNat > 255 then 1 else 0) →
    r = ((s.getV x).toNat + (s.getV y).toNat) % 256 →
    ∃ t, exec (.addReg x y) s = .next t ∧
      (x ≠ VF → (t.getV x).toNat = r ∧ (t.getV VF).toNat = f) ∧
      (x = VF → (t.getV VF).toNat = if s.params.vfOrder = .flagLast then f else r) ∧
      t.pc = s.pc + 2 ∧ KeepsRegsBut [x, VF] s t ∧ KeepsAllBut [.v, .pc] s t

/-- From every state, with f = 1 if V[x] >= V[y] and 0 otherwise, and r the difference mod 256 of the old registers, or
under sequential of the registers after VF := f: for x other than F, V[x] = r and VF = f; for x = F, VF = f under
flag_last and r otherwise. pc + 2, the rest unchanged. The settings are the decision D3 of the spec. [derived:
41_register_alu.md sections 1, 3 and 6] -/
def Obligations.SubSetsNoBorrow : Prop :=
  ∀ (x y : Index) (s : State) (f r : Nat),
    f = (if (s.getV x).toNat ≥ (s.getV y).toNat then 1 else 0) →
    r = (if s.params.vfOrder = .sequential then (256 + (if x = VF then f else (s.getV x).toNat) - (if y = VF then f else (s.getV y).toNat)) % 256 else (256 + (s.getV x).toNat - (s.getV y).toNat) % 256) →
    ∃ t, exec (.sub x y) s = .next t ∧
      (x ≠ VF → (t.getV x).toNat = r ∧ (t.getV VF).toNat = f) ∧
      (x = VF → (t.getV VF).toNat = if s.params.vfOrder = .flagLast then f else r) ∧
      t.pc = s.pc + 2 ∧ KeepsRegsBut [x, VF] s t ∧ KeepsAllBut [.v, .pc] s t

/-- From every state, with f = 1 if V[y] >= V[x] and 0 otherwise, and r the difference V[y] - V[x] mod 256 of the old
registers, or under sequential of the registers after VF := f: for x other than F, V[x] = r and VF = f; for x = F,
VF = f under flag_last and r otherwise. pc + 2, the rest unchanged. The settings are the decision D3 of the spec.
[derived: 41_register_alu.md sections 1, 3 and 6] -/
def Obligations.SubnSetsNoBorrow : Prop :=
  ∀ (x y : Index) (s : State) (f r : Nat),
    f = (if (s.getV y).toNat ≥ (s.getV x).toNat then 1 else 0) →
    r = (if s.params.vfOrder = .sequential then (256 + (if y = VF then f else (s.getV y).toNat) - (if x = VF then f else (s.getV x).toNat)) % 256 else (256 + (s.getV y).toNat - (s.getV x).toNat) % 256) →
    ∃ t, exec (.subn x y) s = .next t ∧
      (x ≠ VF → (t.getV x).toNat = r ∧ (t.getV VF).toNat = f) ∧
      (x = VF → (t.getV VF).toNat = if s.params.vfOrder = .flagLast then f else r) ∧
      t.pc = s.pc + 2 ∧ KeepsRegsBut [x, VF] s t ∧ KeepsAllBut [.v, .pc] s t

/-- From every state, with f the old bit 0 of V[x] and r the old V[x] halved, or under sequential with x = F the flag
halved: for x other than F, V[x] = r and VF = f; for x = F, VF = f under flag_last and r otherwise. pc + 2, the rest
unchanged. The settings are the decision D3 of the spec. [derived: 41_register_alu.md sections 1, 3 and 6] -/
def Obligations.ShrPutsOutTheLowBit : Prop :=
  ∀ (x : Index) (s : State) (f r : Nat),
    f = (s.getV x).toNat % 2 →
    r = (if s.params.vfOrder = .sequential then (if x = VF then f else (s.getV x).toNat) / 2 else (s.getV x).toNat / 2) →
    ∃ t, exec (.shr x) s = .next t ∧
      (x ≠ VF → (t.getV x).toNat = r ∧ (t.getV VF).toNat = f) ∧
      (x = VF → (t.getV VF).toNat = if s.params.vfOrder = .flagLast then f else r) ∧
      t.pc = s.pc + 2 ∧ KeepsRegsBut [x, VF] s t ∧ KeepsAllBut [.v, .pc] s t

/-- From every state, with f the old bit 7 of V[x] and r the old V[x] doubled mod 256, or under sequential with x = F
the flag doubled: for x other than F, V[x] = r and VF = f; for x = F, VF = f under flag_last and r otherwise. pc +
2, the rest unchanged. The settings are the decision D3 of the spec. [derived: 41_register_alu.md sections 1, 3 and
6] -/
def Obligations.ShlPutsOutTheHighBit : Prop :=
  ∀ (x : Index) (s : State) (f r : Nat),
    f = (s.getV x).toNat / 128 →
    r = (if s.params.vfOrder = .sequential then 2 * (if x = VF then f else (s.getV x).toNat) % 256 else 2 * (s.getV x).toNat % 256) →
    ∃ t, exec (.shl x) s = .next t ∧
      (x ≠ VF → (t.getV x).toNat = r ∧ (t.getV VF).toNat = f) ∧
      (x = VF → (t.getV VF).toNat = if s.params.vfOrder = .flagLast then f else r) ∧
      t.pc = s.pc + 2 ∧ KeepsRegsBut [x, VF] s t ∧ KeepsAllBut [.v, .pc] s t

/-- For two states that differ only in P_VF_ORDER and for x and y other than F, 8xy4, 8xy5, 8xy6, 8xy7 and 8xyE answer
states with the same registers, pc, and everything but the parameters. [derived: 41_register_alu.md sections 1 and
6] -/
def Obligations.OrdersAgreeAwayFromVF : Prop :=
  ∀ (s : State) (o : VfOrder) (x y : Index), x ≠ VF → y ≠ VF →
    ∀ i ∈ [Instr.addReg x y, .sub x y, .shr x, .subn x y, .shl x],
      ∃ t u, exec i s = .next t ∧ exec i (s.withVfOrder o) = .next u ∧
        KeepsAllBut [.params] t u

/-- From every state, Cxnn completes with V[x] = the free byte of this draw AND nn, the next draw due, pc + 2, every
other register and everything else unchanged; with nn = 0 the result is 0 whatever the byte. The byte is a free
value (decision D18 of the spec, log entry 5). [derived: 41_register_alu.md section 4, 60_exceptions.md section 5] -/
def Obligations.RndMasksAFreeByte : Prop :=
  ∀ (x : Index) (nn : Byte) (s : State),
    ∃ t, exec (.rnd x nn) s = .next t ∧ t.getV x = Config.randByte s.draws &&& nn ∧ (nn = 0 → t.getV x = 0) ∧
      t.draws = s.draws + 1 ∧ t.pc = s.pc + 2 ∧ KeepsRegsBut [x] s t ∧ KeepsAllBut [.v, .draws, .pc] s t

/-- From every state, Annn completes with I = nnn, Fx1E with I = (I + V[x]) mod 65536, unmasked; pc + 2, VF and
everything else unchanged. [stated: R150, R151] -/
def Obligations.IndexLoadsAndAdds : Prop :=
  ∀ (nnn : Addr12) (x : Index) (s : State),
    (∃ t, exec (.ldI nnn) s = .next t ∧ t.i.toNat = nnn.toNat ∧ t.pc = s.pc + 2 ∧ KeepsAllBut [.i, .pc] s t) ∧
    (∃ t, exec (.addI x) s = .next t ∧ t.i.toNat = (s.i.toNat + (s.getV x).toNat) % 65536 ∧ t.pc = s.pc + 2 ∧
      KeepsAllBut [.i, .pc] s t)

/-- From every state, Fx29 completes with I = 0x050 + 5 * (V[x] mod 16) under low_nibble and 0x050 + 5 * V[x] under
unmasked, pc + 2, everything else unchanged. The settings are the decision D10 of the spec. [derived:
42_index_memory.md, Fx29] -/
def Obligations.FontGlyphAddress : Prop :=
  ∀ (x : Index) (s : State),
    ∃ t, exec (.ldF x) s = .next t ∧
      t.i.toNat = 0x050 + 5 * (match s.params.fx29Wide with
        | .lowNibble => (s.getV x).toNat % 16
        | .unmasked => (s.getV x).toNat) ∧
      t.pc = s.pc + 2 ∧ KeepsAllBut [.i, .pc] s t

/-- From every state with canonical memory: when I + 2 < 4096, Fx33 completes with V[x] div 100, V[x] div 10 mod 10 and
V[x] mod 10 at I, I + 1 and I + 2, every byte outside them, I, the registers and everything else unchanged, pc + 2;
otherwise it answers the state halted by MemoryOutOfBounds at max(I, 4096) with its own word, nothing written. The
canonical form is log entry 7; the halt and the absence of partial effects are the decisions D7 and D5 of the spec.
[derived: 42_index_memory.md, Fx33, 00_scope.md section 4] -/
def Obligations.BcdStoresDigits : Prop :=
  ∀ (x : Index) (s : State), Memory.wf s.params.font s.mem = true →
    (s.i.toNat + 2 < 4096 →
      ∃ t, exec (.ldB x) s = .next t ∧ (t.byteAt s.i.toNat).toNat = (s.getV x).toNat / 100 ∧
        (t.byteAt (s.i.toNat + 1)).toNat = (s.getV x).toNat / 10 % 10 ∧
        (t.byteAt (s.i.toNat + 2)).toNat = (s.getV x).toNat % 10 ∧
        KeepsBytesOutside s.i.toNat 3 s t ∧ t.pc = s.pc + 2 ∧ KeepsAllBut [.mem, .pc] s t) ∧
    (4096 ≤ s.i.toNat + 2 →
      ∃ t, exec (.ldB x) s = .next t ∧ HaltsWith (.memoryOutOfBounds (max s.i.toNat 4096))
        (some (0xF033#16 + (BitVec.ofNat 16 x <<< 8))) s t)

/-- From every state with canonical memory: when I + x < 4096, Fx55 completes with V[k] at I + k for every k up to x,
every byte outside them, I, the registers and everything else unchanged, pc + 2; otherwise it answers the state
halted by MemoryOutOfBounds at max(I, 4096) with its own word, nothing written. The canonical form is log entry 7;
the halt and the absence of partial effects are the decisions D7 and D5 of the spec. That I stays is derived in rule
R154. [derived: 42_index_memory.md, Fx55, 00_scope.md section 4] -/
def Obligations.StoreRegisters : Prop :=
  ∀ (x : Index) (s : State), Memory.wf s.params.font s.mem = true →
    (s.i.toNat + x.val < 4096 →
      ∃ t, exec (.ldMemVx x) s = .next t ∧ (∀ k, k ≤ x → t.byteAt (s.i.toNat + k.val) = s.getV k) ∧
        KeepsBytesOutside s.i.toNat (x.val + 1) s t ∧ t.pc = s.pc + 2 ∧ KeepsAllBut [.mem, .pc] s t) ∧
    (4096 ≤ s.i.toNat + x.val →
      ∃ t, exec (.ldMemVx x) s = .next t ∧ HaltsWith (.memoryOutOfBounds (max s.i.toNat 4096))
        (some (0xF055#16 + (BitVec.ofNat 16 x <<< 8))) s t)

/-- From every state: when I + x < 4096, Fx65 completes with V[k] = mem[I + k] for every k up to x, the registers above
x, I, memory and everything else unchanged, pc + 2; otherwise it answers the state halted by MemoryOutOfBounds at
max(I, 4096) with its own word, no register changed. The halt and the absence of partial effects are the decisions
D7 and D5 of the spec. [derived: 42_index_memory.md, Fx65, 00_scope.md section 4] -/
def Obligations.LoadRegisters : Prop :=
  ∀ (x : Index) (s : State),
    (s.i.toNat + x.val < 4096 →
      ∃ t, exec (.ldVxMem x) s = .next t ∧ (∀ k, k ≤ x → t.getV k = s.byteAt (s.i.toNat + k.val)) ∧
        (∀ k, x < k → t.getV k = s.getV k) ∧ t.pc = s.pc + 2 ∧ KeepsAllBut [.v, .pc] s t) ∧
    (4096 ≤ s.i.toNat + x.val →
      ∃ t, exec (.ldVxMem x) s = .next t ∧ HaltsWith (.memoryOutOfBounds (max s.i.toNat 4096))
        (some (0xF065#16 + (BitVec.ofNat 16 x <<< 8))) s t)

/-- From every state with canonical memory and I + x < 4096: Fx55 completes, and Fx65 run from its result with the
registers replaced by any values completes with V[k] as before the store for every k up to x. The canonical form is
the model's (log entry 7). [derived: 42_index_memory.md, Fx55 and Fx65, 95_test_vectors.md L1] -/
def Obligations.StoreThenLoadRestoresRegisters : Prop :=
  ∀ (x : Index) (s : State) (junk : Vector Byte 16), Memory.wf s.params.font s.mem = true →
    s.i.toNat + x.val < 4096 →
    ∃ t u, exec (.ldMemVx x) s = .next t ∧ exec (.ldVxMem x) { t with v := junk } = .next u ∧
      ∀ k, k ≤ x → u.getV k = s.getV k

/-- From every state whose stack is not full: 2nnn completes, and 00EE run from its result, at whatever address and with
whatever registers, completes with pc = the call's pc + 2 and the stack as before the call. That a stack can be full
is the decision D4 of the spec. [derived: 40_pc_sequencer.md, 2nnn and 00EE, 95_test_vectors.md L1] -/
def Obligations.CallThenReturnComesBack : Prop :=
  ∀ (nnn : Addr12) (s : State) (pc : Word) (v : Vector Byte 16), s.params.stackDepth ≠ some s.stack.length →
    ∃ t u, exec (.call nnn) s = .next t ∧ exec .ret { t with pc := pc, v := v } = .next u ∧
      u.pc = s.pc + 2 ∧ u.stack = s.stack

/-- For every font and every two memories in canonical form: if every address reads the same in both, they are the same
list. The canonical form is the model's (log entry 7). [derived: 10_state.md section 5] -/
def Obligations.CanonicalMemoriesAreEqual : Prop :=
  ∀ (font : Vector Byte 80) (m m' : Memory), Memory.wf font m = true → Memory.wf font m' = true →
    (∀ a, Memory.read font m a = Memory.read font m' a) → m = m'

/-- From every state, 00E0 completes with every one of the 2048 pixels unset, pc + 2, VF and everything else unchanged.
[stated: R170] -/
def Obligations.ClsClearsEveryPixel : Prop :=
  ∀ s : State, ∃ t, exec .cls s = .next t ∧ (∀ p, framePixel t.fb p = false) ∧ t.pc = s.pc + 2 ∧
    KeepsAllBut [.fb, .pc] s t

/-- From every state, for all x, y, n: when n = 0 or I + n - 1 < 4096, Dxyn completes; every pixel is flipped exactly
when it is ((cx + c) mod 64, (cy + r) mod 32) for a set bit 7 - c of sprite byte r; VF is 1 if a flipped pixel was
set and 0 otherwise; pc + 2, the other registers and everything else unchanged. cx and cy are V[x] and V[y], but 0
for VF under P_VF_ORDER = sequential. Otherwise it answers the state halted by MemoryOutOfBounds at max(I, 4096)
with its own word. The coordinate order and n = 0 are the decisions D2, D3 and D24 of the spec, and the halt without
other effects its decisions D7 and D5. [derived: 43_draw_engine.md, Dxyn] -/
def Obligations.DrawXorsTheSprite : Prop :=
  ∀ (x y n : Index) (s : State),
    ((n = 0 ∨ s.i.toNat + n.val ≤ 4096) →
      ∃ t, exec (.drw x y n) s = .next t ∧
        (∀ p, framePixel t.fb p = true ↔
          (framePixel s.fb p = true ∧ ¬SpriteCovers s (drawCoordinate s x) (drawCoordinate s y) n.val p) ∨
          (framePixel s.fb p = false ∧ SpriteCovers s (drawCoordinate s x) (drawCoordinate s y) n.val p)) ∧
        ((∃ p, framePixel s.fb p = true ∧ SpriteCovers s (drawCoordinate s x) (drawCoordinate s y) n.val p) →
          t.getV VF = 1) ∧
        ((∀ p, framePixel s.fb p = true → ¬SpriteCovers s (drawCoordinate s x) (drawCoordinate s y) n.val p) →
          t.getV VF = 0) ∧
        t.pc = s.pc + 2 ∧ KeepsRegsBut [VF] s t ∧ KeepsAllBut [.v, .fb, .pc] s t) ∧
    (n ≠ 0 → 4096 < s.i.toNat + n.val →
      ∃ t, exec (.drw x y n) s = .next t ∧ HaltsWith (.memoryOutOfBounds (max s.i.toNat 4096))
        (some (0xD000#16 + (BitVec.ofNat 16 x <<< 8) + (BitVec.ofNat 16 y <<< 4) + BitVec.ofNat 16 n)) s t)

/-- For every state and all x, y, n, the list of positions that Dxyn XORs has no repeats: 8 columns are distinct modulo
64 and at most 15 rows are distinct modulo 32. [derived: 43_draw_engine.md, the properties of Dxyn] -/
def Obligations.SpritePixelsAreDistinct : Prop :=
  ∀ (s : State) (x y n : Index), (s.drawnPixels x y n).Nodup

/-- From every state where Dxyn is in bounds: Dxyn completes with t, and from every state w that has t's frame buffer
and the same memory, I, parameters and coordinates as the first, Dxyn completes with the first frame buffer
restored, and VF = 1 exactly when the sprite has a position that was unset at first (the corrected property of
90_conflicts.md C2). [derived: 43_draw_engine.md, the properties of Dxyn, 90_conflicts.md C2] -/
def Obligations.DrawingTwiceRestoresTheFrame : Prop :=
  ∀ (x y n : Index) (s : State), (n = 0 ∨ s.i.toNat + n.val ≤ 4096) →
    ∃ t, exec (.drw x y n) s = .next t ∧
      ∀ w : State, w.fb = t.fb → w.i = s.i → w.params = s.params → (∀ a, w.byteAt a = s.byteAt a) →
        w.getV x = s.getV x → w.getV y = s.getV y →
        ∃ u, exec (.drw x y n) w = .next u ∧ u.fb = s.fb ∧
          (u.getV VF = 1 ↔ ∃ p, framePixel s.fb p = false ∧
            SpriteCovers s (drawCoordinate s x) (drawCoordinate s y) n.val p)

/-- From every state: when V[x] is k of 0..15, Ex9E completes with pc + 4 if key k is pressed and pc + 2 if not, ExA1
the other way round, nothing else changed; when V[x] > 0xF both answer the state halted by KeyIndexOutOfRange with
that value and their own word, and nothing else changes. The fault, the halt and the absence of other effects are
the decisions D9, D7 and D5 of the spec. [derived: 44_keys_timers.md, Ex9E, ExA1 and the key-index check] -/
def Obligations.KeySkips : Prop :=
  ∀ (x : Index) (s : State),
    (∀ k : Index, (s.getV x).toNat = k.val →
      (∃ t, exec (.skp x) s = .next t ∧ t.pc = (if s.keys[k] = true then s.pc + 4 else s.pc + 2) ∧
        KeepsAllBut [.pc] s t) ∧
      (∃ t, exec (.sknp x) s = .next t ∧ t.pc = (if s.keys[k] = true then s.pc + 2 else s.pc + 4) ∧
        KeepsAllBut [.pc] s t)) ∧
    (0xF < (s.getV x).toNat →
      (∃ t, exec (.skp x) s = .next t ∧
        HaltsWith (.keyIndexOutOfRange (s.getV x)) (some (0xE09E#16 + (BitVec.ofNat 16 x <<< 8))) s t) ∧
      (∃ t, exec (.sknp x) s = .next t ∧
        HaltsWith (.keyIndexOutOfRange (s.getV x)) (some (0xE0A1#16 + (BitVec.ofNat 16 x <<< 8))) s t))

/-- From every state: with no key pressed, Fx0A completes and answers the very same state, pc included; when k is the
lowest-indexed pressed key, it completes with V[x] = k, pc + 2, every other register and everything else unchanged.
[stated: R192] -/
def Obligations.WaitForKey : Prop :=
  ∀ (x : Index) (s : State),
    ((∀ k : Index, s.keys[k] = false) → exec (.ldVxK x) s = .next s) ∧
    (∀ k : Index, s.keys[k] = true → (∀ j : Index, j < k → s.keys[j] = false) →
      ∃ t, exec (.ldVxK x) s = .next t ∧ (t.getV x).toNat = k.val ∧ t.pc = s.pc + 2 ∧ KeepsRegsBut [x] s t ∧
        KeepsAllBut [.v, .pc] s t)

/-- From every state, Fx07 completes with V[x] = DT, Fx15 with DT = V[x], Fx18 with ST = V[x] and the sound output on
exactly when V[x] is not 0; pc + 2 and everything else unchanged. [stated: R193, R194, R195] -/
def Obligations.TimerMoves : Prop :=
  ∀ (x : Index) (s : State),
    (∃ t, exec (.ldVxDt x) s = .next t ∧ t.getV x = s.dt ∧ t.pc = s.pc + 2 ∧ KeepsRegsBut [x] s t ∧
      KeepsAllBut [.v, .pc] s t) ∧
    (∃ t, exec (.ldDtVx x) s = .next t ∧ t.dt = s.getV x ∧ t.pc = s.pc + 2 ∧ KeepsAllBut [.dt, .pc] s t) ∧
    (∃ t, exec (.ldStVx x) s = .next t ∧ t.st = s.getV x ∧ (t.sound = true ↔ s.getV x ≠ 0) ∧ t.pc = s.pc + 2 ∧
      KeepsAllBut [.st, .pc] s t)

/-- For every state, halted or not, a tick leaves DT and ST each one lower, floored at 0, and everything else unchanged.
That ticks go on while the block is halted is the decision D25 of the spec. [derived: 60_exceptions.md section 4] -/
def Obligations.TickCountsDown : Prop :=
  ∀ s : State, s.tick.dt.toNat = s.dt.toNat - 1 ∧ s.tick.st.toNat = s.st.toNat - 1 ∧
    KeepsAllBut [.dt, .st] s s.tick

/-- For every state with canonical memory: an image of at most 3584 bytes loads with result ok, byte k of it at 0x200 +
k, every other byte and everything else unchanged; a larger one gives LoadError (code 16) with its size and the very
same state. The rejection and size 0 are the decision D30 of the spec, the code its decision D6, and the canonical
form is log entry 7. [derived: 70_reset_and_hazards.md section 2] -/
def Obligations.LoadCopiesOrRejects : Prop :=
  ∀ (s : State) (image : List Byte), Memory.wf s.params.font s.mem = true →
    (image.length ≤ 3584 →
      (s.load image).2 = .ok ∧ (∀ (k : Nat) (h : k < image.length), (s.load image).1.byteAt (0x200 + k) = image[k]) ∧
        KeepsBytesOutside 0x200 image.length s (s.load image).1 ∧ KeepsAllBut [.mem] s (s.load image).1) ∧
    (3584 < image.length → loadErrorCode = 16 ∧ s.load image = (s, .loadError image.length))

/-- After a reset of any state: V0..VF, I, DT and ST are 0, pc is 0x200, the stack is empty, the block is not halted and
has no record, memory reads P_FONT at 0x050..0x09F and 0 elsewhere, and the keys and the parameters are as before;
the frame buffer is not constrained. The state after power-on has the same with the default parameters. That reset
is the start-up initialisation and that I = 0 is the decision D27 of the spec; the default parameters and font are
log entries 2 and 3, and no key pressed at power-on is log entry 6. [derived: 10_state.md section 7,
70_reset_and_hazards.md section 1] -/
def Obligations.ResetLeavesTheListedState : Prop :=
  (∀ s : State, ∀ t ∈ [s.hostReset, State.reset],
    (∀ k, t.getV k = 0) ∧ t.i = 0 ∧ t.pc = 0x200 ∧ t.stack = [] ∧ t.dt = 0 ∧ t.st = 0 ∧ t.halted = false ∧
      t.fault = none ∧ (∀ k : Fin 80, t.byteAt (0x050 + k.val) = t.params.font[k]) ∧
      (∀ a, a < 0x050 ∨ 0x0A0 ≤ a → t.byteAt a = 0)) ∧
  (∀ s : State, s.hostReset.keys = s.keys ∧ s.hostReset.params = s.params) ∧
  State.reset.params = defaultParams ∧ ∀ k : Index, State.reset.keys[k] = false

/-- For every state with canonical memory and every word w that decodes to i: the step of the state with w stored where
it fetches is exec of i at that state. withFetchWord is the model's device for a loaded word and no operation of the
block: it also clears halted and the record, and moves pc to 0x200 where pc has no two bytes to fetch from (log
entry 8; the canonical form is log entry 7). [derived: 30_encoding.md sections 1 and 2] -/
def Obligations.PlacedWordRuns : Prop :=
  ∀ (s : State) (w : Word) (i : Instr), Memory.wf s.params.font s.mem = true → decode w = some i →
    step (s.withFetchWord 16 w.toNat) = exec i (s.withFetchWord 16 w.toNat)

/-- A state that is not halted, at a self-jump 1nnn with nnn = pc and pc at most 0xFFE, steps to a state equal to it, so
it is finished after any number of steps (the end of a run is the decision D23 of the spec). [derived:
60_exceptions.md section 6] -/
def Obligations.SelfJumpStaysFinished : Prop :=
  ∀ s : State, s.finished = true → step s = .next s ∧ s.faulted = false

/-- A sequence of operations can be carried out exactly when, for each load in it, the operations before it hold no step
after their last reset, or hold no step at all and a load could come at the start. Resets, steps, ticks and key
changes come at any time. That the host has no other load is the decision D19 of the spec. [derived:
60_exceptions.md section 6, 70_reset_and_hazards.md section 2] -/
def Obligations.HostLoadsOnlyBeforeTheFirstStep : Prop :=
  ∀ (h : Session) (ops : List HostOp),
    (runOps h ops).isSome = true ↔
      ∀ (before : List HostOp) (image : List Byte) (rest : List HostOp), ops = before ++ .load image :: rest →
        (∃ a b, before = a ++ .reset :: b ∧ .step ∉ b) ∨ (h.mayLoad = true ∧ .step ∉ before)

/-- For every instruction, every state and every value b: exec answers a next state from the state and from the same
state with ST = b, and the two differ at most in ST. [derived: 44_keys_timers.md, Fx18] -/
def Obligations.NoInstructionReadsTheSoundTimer : Prop :=
  ∀ (i : Instr) (s : State) (b : Byte),
    ∃ t u, exec i s = .next t ∧ exec i (s.setSt b) = .next u ∧ KeepsAllBut [.st] t u
end

