-- ==== Sys2Proof/Laws/State.lean ====
section
/-! SUPPORT. One lemma per field per update of the state, and the two views (V[k] and mem[a]) that only the register
file and the memory decide. Later proofs rewrite with these and unfold no record update. -/

namespace Sys2Proof.Machine.State

variable (s : State)

/-! ## storeBytes -/

@[simp] theorem storeBytes_v (a : Nat) (bs : List Byte) : (s.storeBytes a bs).v = s.v := rfl
@[simp] theorem storeBytes_i (a : Nat) (bs : List Byte) : (s.storeBytes a bs).i = s.i := rfl
@[simp] theorem storeBytes_pc (a : Nat) (bs : List Byte) : (s.storeBytes a bs).pc = s.pc := rfl
@[simp] theorem storeBytes_stack (a : Nat) (bs : List Byte) : (s.storeBytes a bs).stack = s.stack := rfl
@[simp] theorem storeBytes_dt (a : Nat) (bs : List Byte) : (s.storeBytes a bs).dt = s.dt := rfl
@[simp] theorem storeBytes_st (a : Nat) (bs : List Byte) : (s.storeBytes a bs).st = s.st := rfl
@[simp] theorem storeBytes_mem (a : Nat) (bs : List Byte) : (s.storeBytes a bs).mem = Memory.writeList s.params.font s.mem a bs := rfl
@[simp] theorem storeBytes_fb (a : Nat) (bs : List Byte) : (s.storeBytes a bs).fb = s.fb := rfl
@[simp] theorem storeBytes_halted (a : Nat) (bs : List Byte) : (s.storeBytes a bs).halted = s.halted := rfl
@[simp] theorem storeBytes_fault (a : Nat) (bs : List Byte) : (s.storeBytes a bs).fault = s.fault := rfl
@[simp] theorem storeBytes_keys (a : Nat) (bs : List Byte) : (s.storeBytes a bs).keys = s.keys := rfl
@[simp] theorem storeBytes_draws (a : Nat) (bs : List Byte) : (s.storeBytes a bs).draws = s.draws := rfl
@[simp] theorem storeBytes_params (a : Nat) (bs : List Byte) : (s.storeBytes a bs).params = s.params := rfl
@[simp] theorem storeBytes_getV (a : Nat) (bs : List Byte) (r : Index) : (s.storeBytes a bs).getV r = s.getV r := rfl

/-! ## setV -/

@[simp] theorem setV_v (x : Index) (b : Byte) : (s.setV x b).v = s.v.set x b := rfl
@[simp] theorem setV_i (x : Index) (b : Byte) : (s.setV x b).i = s.i := rfl
@[simp] theorem setV_pc (x : Index) (b : Byte) : (s.setV x b).pc = s.pc := rfl
@[simp] theorem setV_stack (x : Index) (b : Byte) : (s.setV x b).stack = s.stack := rfl
@[simp] theorem setV_dt (x : Index) (b : Byte) : (s.setV x b).dt = s.dt := rfl
@[simp] theorem setV_st (x : Index) (b : Byte) : (s.setV x b).st = s.st := rfl
@[simp] theorem setV_mem (x : Index) (b : Byte) : (s.setV x b).mem = s.mem := rfl
@[simp] theorem setV_fb (x : Index) (b : Byte) : (s.setV x b).fb = s.fb := rfl
@[simp] theorem setV_halted (x : Index) (b : Byte) : (s.setV x b).halted = s.halted := rfl
@[simp] theorem setV_fault (x : Index) (b : Byte) : (s.setV x b).fault = s.fault := rfl
@[simp] theorem setV_keys (x : Index) (b : Byte) : (s.setV x b).keys = s.keys := rfl
@[simp] theorem setV_draws (x : Index) (b : Byte) : (s.setV x b).draws = s.draws := rfl
@[simp] theorem setV_params (x : Index) (b : Byte) : (s.setV x b).params = s.params := rfl
@[simp] theorem setV_byteAt (x : Index) (b : Byte) (p : Nat) : (s.setV x b).byteAt p = s.byteAt p := rfl

/-! ## loadV -/

@[simp] theorem loadV_i (bs : List Byte) : (s.loadV bs).i = s.i := rfl
@[simp] theorem loadV_pc (bs : List Byte) : (s.loadV bs).pc = s.pc := rfl
@[simp] theorem loadV_stack (bs : List Byte) : (s.loadV bs).stack = s.stack := rfl
@[simp] theorem loadV_dt (bs : List Byte) : (s.loadV bs).dt = s.dt := rfl
@[simp] theorem loadV_st (bs : List Byte) : (s.loadV bs).st = s.st := rfl
@[simp] theorem loadV_mem (bs : List Byte) : (s.loadV bs).mem = s.mem := rfl
@[simp] theorem loadV_fb (bs : List Byte) : (s.loadV bs).fb = s.fb := rfl
@[simp] theorem loadV_halted (bs : List Byte) : (s.loadV bs).halted = s.halted := rfl
@[simp] theorem loadV_fault (bs : List Byte) : (s.loadV bs).fault = s.fault := rfl
@[simp] theorem loadV_keys (bs : List Byte) : (s.loadV bs).keys = s.keys := rfl
@[simp] theorem loadV_draws (bs : List Byte) : (s.loadV bs).draws = s.draws := rfl
@[simp] theorem loadV_params (bs : List Byte) : (s.loadV bs).params = s.params := rfl
@[simp] theorem loadV_byteAt (bs : List Byte) (p : Nat) : (s.loadV bs).byteAt p = s.byteAt p := rfl

/-! ## setI -/

@[simp] theorem setI_v (w : Word) : (s.setI w).v = s.v := rfl
@[simp] theorem setI_i (w : Word) : (s.setI w).i = w := rfl
@[simp] theorem setI_pc (w : Word) : (s.setI w).pc = s.pc := rfl
@[simp] theorem setI_stack (w : Word) : (s.setI w).stack = s.stack := rfl
@[simp] theorem setI_dt (w : Word) : (s.setI w).dt = s.dt := rfl
@[simp] theorem setI_st (w : Word) : (s.setI w).st = s.st := rfl
@[simp] theorem setI_mem (w : Word) : (s.setI w).mem = s.mem := rfl
@[simp] theorem setI_fb (w : Word) : (s.setI w).fb = s.fb := rfl
@[simp] theorem setI_halted (w : Word) : (s.setI w).halted = s.halted := rfl
@[simp] theorem setI_fault (w : Word) : (s.setI w).fault = s.fault := rfl
@[simp] theorem setI_keys (w : Word) : (s.setI w).keys = s.keys := rfl
@[simp] theorem setI_draws (w : Word) : (s.setI w).draws = s.draws := rfl
@[simp] theorem setI_params (w : Word) : (s.setI w).params = s.params := rfl
@[simp] theorem setI_getV (w : Word) (r : Index) : (s.setI w).getV r = s.getV r := rfl
@[simp] theorem setI_byteAt (w : Word) (p : Nat) : (s.setI w).byteAt p = s.byteAt p := rfl

/-! ## setPc -/

@[simp] theorem setPc_v (w : Word) : (s.setPc w).v = s.v := rfl
@[simp] theorem setPc_i (w : Word) : (s.setPc w).i = s.i := rfl
@[simp] theorem setPc_pc (w : Word) : (s.setPc w).pc = w := rfl
@[simp] theorem setPc_stack (w : Word) : (s.setPc w).stack = s.stack := rfl
@[simp] theorem setPc_dt (w : Word) : (s.setPc w).dt = s.dt := rfl
@[simp] theorem setPc_st (w : Word) : (s.setPc w).st = s.st := rfl
@[simp] theorem setPc_mem (w : Word) : (s.setPc w).mem = s.mem := rfl
@[simp] theorem setPc_fb (w : Word) : (s.setPc w).fb = s.fb := rfl
@[simp] theorem setPc_halted (w : Word) : (s.setPc w).halted = s.halted := rfl
@[simp] theorem setPc_fault (w : Word) : (s.setPc w).fault = s.fault := rfl
@[simp] theorem setPc_keys (w : Word) : (s.setPc w).keys = s.keys := rfl
@[simp] theorem setPc_draws (w : Word) : (s.setPc w).draws = s.draws := rfl
@[simp] theorem setPc_params (w : Word) : (s.setPc w).params = s.params := rfl
@[simp] theorem setPc_getV (w : Word) (r : Index) : (s.setPc w).getV r = s.getV r := rfl
@[simp] theorem setPc_byteAt (w : Word) (p : Nat) : (s.setPc w).byteAt p = s.byteAt p := rfl

/-! ## advance -/

@[simp] theorem advance_v : (s.advance).v = s.v := rfl
@[simp] theorem advance_i : (s.advance).i = s.i := rfl
@[simp] theorem advance_pc : (s.advance).pc = s.pc + 2 := rfl
@[simp] theorem advance_stack : (s.advance).stack = s.stack := rfl
@[simp] theorem advance_dt : (s.advance).dt = s.dt := rfl
@[simp] theorem advance_st : (s.advance).st = s.st := rfl
@[simp] theorem advance_mem : (s.advance).mem = s.mem := rfl
@[simp] theorem advance_fb : (s.advance).fb = s.fb := rfl
@[simp] theorem advance_halted : (s.advance).halted = s.halted := rfl
@[simp] theorem advance_fault : (s.advance).fault = s.fault := rfl
@[simp] theorem advance_keys : (s.advance).keys = s.keys := rfl
@[simp] theorem advance_draws : (s.advance).draws = s.draws := rfl
@[simp] theorem advance_params : (s.advance).params = s.params := rfl
@[simp] theorem advance_getV (r : Index) : (s.advance).getV r = s.getV r := rfl
@[simp] theorem advance_byteAt (p : Nat) : (s.advance).byteAt p = s.byteAt p := rfl

/-! ## setDt -/

@[simp] theorem setDt_v (b : Byte) : (s.setDt b).v = s.v := rfl
@[simp] theorem setDt_i (b : Byte) : (s.setDt b).i = s.i := rfl
@[simp] theorem setDt_pc (b : Byte) : (s.setDt b).pc = s.pc := rfl
@[simp] theorem setDt_stack (b : Byte) : (s.setDt b).stack = s.stack := rfl
@[simp] theorem setDt_dt (b : Byte) : (s.setDt b).dt = b := rfl
@[simp] theorem setDt_st (b : Byte) : (s.setDt b).st = s.st := rfl
@[simp] theorem setDt_mem (b : Byte) : (s.setDt b).mem = s.mem := rfl
@[simp] theorem setDt_fb (b : Byte) : (s.setDt b).fb = s.fb := rfl
@[simp] theorem setDt_halted (b : Byte) : (s.setDt b).halted = s.halted := rfl
@[simp] theorem setDt_fault (b : Byte) : (s.setDt b).fault = s.fault := rfl
@[simp] theorem setDt_keys (b : Byte) : (s.setDt b).keys = s.keys := rfl
@[simp] theorem setDt_draws (b : Byte) : (s.setDt b).draws = s.draws := rfl
@[simp] theorem setDt_params (b : Byte) : (s.setDt b).params = s.params := rfl
@[simp] theorem setDt_getV (b : Byte) (r : Index) : (s.setDt b).getV r = s.getV r := rfl
@[simp] theorem setDt_byteAt (b : Byte) (p : Nat) : (s.setDt b).byteAt p = s.byteAt p := rfl

/-! ## setSt -/

@[simp] theorem setSt_v (b : Byte) : (s.setSt b).v = s.v := rfl
@[simp] theorem setSt_i (b : Byte) : (s.setSt b).i = s.i := rfl
@[simp] theorem setSt_pc (b : Byte) : (s.setSt b).pc = s.pc := rfl
@[simp] theorem setSt_stack (b : Byte) : (s.setSt b).stack = s.stack := rfl
@[simp] theorem setSt_dt (b : Byte) : (s.setSt b).dt = s.dt := rfl
@[simp] theorem setSt_st (b : Byte) : (s.setSt b).st = b := rfl
@[simp] theorem setSt_mem (b : Byte) : (s.setSt b).mem = s.mem := rfl
@[simp] theorem setSt_fb (b : Byte) : (s.setSt b).fb = s.fb := rfl
@[simp] theorem setSt_halted (b : Byte) : (s.setSt b).halted = s.halted := rfl
@[simp] theorem setSt_fault (b : Byte) : (s.setSt b).fault = s.fault := rfl
@[simp] theorem setSt_keys (b : Byte) : (s.setSt b).keys = s.keys := rfl
@[simp] theorem setSt_draws (b : Byte) : (s.setSt b).draws = s.draws := rfl
@[simp] theorem setSt_params (b : Byte) : (s.setSt b).params = s.params := rfl
@[simp] theorem setSt_getV (b : Byte) (r : Index) : (s.setSt b).getV r = s.getV r := rfl
@[simp] theorem setSt_byteAt (b : Byte) (p : Nat) : (s.setSt b).byteAt p = s.byteAt p := rfl

/-! ## push -/

@[simp] theorem push_v (w : Word) : (s.push w).v = s.v := rfl
@[simp] theorem push_i (w : Word) : (s.push w).i = s.i := rfl
@[simp] theorem push_pc (w : Word) : (s.push w).pc = s.pc := rfl
@[simp] theorem push_stack (w : Word) : (s.push w).stack = s.stack ++ [w] := rfl
@[simp] theorem push_dt (w : Word) : (s.push w).dt = s.dt := rfl
@[simp] theorem push_st (w : Word) : (s.push w).st = s.st := rfl
@[simp] theorem push_mem (w : Word) : (s.push w).mem = s.mem := rfl
@[simp] theorem push_fb (w : Word) : (s.push w).fb = s.fb := rfl
@[simp] theorem push_halted (w : Word) : (s.push w).halted = s.halted := rfl
@[simp] theorem push_fault (w : Word) : (s.push w).fault = s.fault := rfl
@[simp] theorem push_keys (w : Word) : (s.push w).keys = s.keys := rfl
@[simp] theorem push_draws (w : Word) : (s.push w).draws = s.draws := rfl
@[simp] theorem push_params (w : Word) : (s.push w).params = s.params := rfl
@[simp] theorem push_getV (w : Word) (r : Index) : (s.push w).getV r = s.getV r := rfl
@[simp] theorem push_byteAt (w : Word) (p : Nat) : (s.push w).byteAt p = s.byteAt p := rfl

/-! ## dropTop -/

@[simp] theorem dropTop_v : (s.dropTop).v = s.v := rfl
@[simp] theorem dropTop_i : (s.dropTop).i = s.i := rfl
@[simp] theorem dropTop_pc : (s.dropTop).pc = s.pc := rfl
@[simp] theorem dropTop_stack : (s.dropTop).stack = s.stack.dropLast := rfl
@[simp] theorem dropTop_dt : (s.dropTop).dt = s.dt := rfl
@[simp] theorem dropTop_st : (s.dropTop).st = s.st := rfl
@[simp] theorem dropTop_mem : (s.dropTop).mem = s.mem := rfl
@[simp] theorem dropTop_fb : (s.dropTop).fb = s.fb := rfl
@[simp] theorem dropTop_halted : (s.dropTop).halted = s.halted := rfl
@[simp] theorem dropTop_fault : (s.dropTop).fault = s.fault := rfl
@[simp] theorem dropTop_keys : (s.dropTop).keys = s.keys := rfl
@[simp] theorem dropTop_draws : (s.dropTop).draws = s.draws := rfl
@[simp] theorem dropTop_params : (s.dropTop).params = s.params := rfl
@[simp] theorem dropTop_getV (r : Index) : (s.dropTop).getV r = s.getV r := rfl
@[simp] theorem dropTop_byteAt (p : Nat) : (s.dropTop).byteAt p = s.byteAt p := rfl

/-! ## setFb -/

@[simp] theorem setFb_v (fb : Frame) : (s.setFb fb).v = s.v := rfl
@[simp] theorem setFb_i (fb : Frame) : (s.setFb fb).i = s.i := rfl
@[simp] theorem setFb_pc (fb : Frame) : (s.setFb fb).pc = s.pc := rfl
@[simp] theorem setFb_stack (fb : Frame) : (s.setFb fb).stack = s.stack := rfl
@[simp] theorem setFb_dt (fb : Frame) : (s.setFb fb).dt = s.dt := rfl
@[simp] theorem setFb_st (fb : Frame) : (s.setFb fb).st = s.st := rfl
@[simp] theorem setFb_mem (fb : Frame) : (s.setFb fb).mem = s.mem := rfl
@[simp] theorem setFb_fb (fb : Frame) : (s.setFb fb).fb = fb := rfl
@[simp] theorem setFb_halted (fb : Frame) : (s.setFb fb).halted = s.halted := rfl
@[simp] theorem setFb_fault (fb : Frame) : (s.setFb fb).fault = s.fault := rfl
@[simp] theorem setFb_keys (fb : Frame) : (s.setFb fb).keys = s.keys := rfl
@[simp] theorem setFb_draws (fb : Frame) : (s.setFb fb).draws = s.draws := rfl
@[simp] theorem setFb_params (fb : Frame) : (s.setFb fb).params = s.params := rfl
@[simp] theorem setFb_getV (fb : Frame) (r : Index) : (s.setFb fb).getV r = s.getV r := rfl
@[simp] theorem setFb_byteAt (fb : Frame) (p : Nat) : (s.setFb fb).byteAt p = s.byteAt p := rfl

/-! ## nextDraw -/

@[simp] theorem nextDraw_v : (s.nextDraw).v = s.v := rfl
@[simp] theorem nextDraw_i : (s.nextDraw).i = s.i := rfl
@[simp] theorem nextDraw_pc : (s.nextDraw).pc = s.pc := rfl
@[simp] theorem nextDraw_stack : (s.nextDraw).stack = s.stack := rfl
@[simp] theorem nextDraw_dt : (s.nextDraw).dt = s.dt := rfl
@[simp] theorem nextDraw_st : (s.nextDraw).st = s.st := rfl
@[simp] theorem nextDraw_mem : (s.nextDraw).mem = s.mem := rfl
@[simp] theorem nextDraw_fb : (s.nextDraw).fb = s.fb := rfl
@[simp] theorem nextDraw_halted : (s.nextDraw).halted = s.halted := rfl
@[simp] theorem nextDraw_fault : (s.nextDraw).fault = s.fault := rfl
@[simp] theorem nextDraw_keys : (s.nextDraw).keys = s.keys := rfl
@[simp] theorem nextDraw_draws : (s.nextDraw).draws = s.draws + 1 := rfl
@[simp] theorem nextDraw_params : (s.nextDraw).params = s.params := rfl
@[simp] theorem nextDraw_getV (r : Index) : (s.nextDraw).getV r = s.getV r := rfl
@[simp] theorem nextDraw_byteAt (p : Nat) : (s.nextDraw).byteAt p = s.byteAt p := rfl

/-! ## tick -/

@[simp] theorem tick_v : (s.tick).v = s.v := rfl
@[simp] theorem tick_i : (s.tick).i = s.i := rfl
@[simp] theorem tick_pc : (s.tick).pc = s.pc := rfl
@[simp] theorem tick_stack : (s.tick).stack = s.stack := rfl
@[simp] theorem tick_dt : (s.tick).dt = countDown s.dt := rfl
@[simp] theorem tick_st : (s.tick).st = countDown s.st := rfl
@[simp] theorem tick_mem : (s.tick).mem = s.mem := rfl
@[simp] theorem tick_fb : (s.tick).fb = s.fb := rfl
@[simp] theorem tick_halted : (s.tick).halted = s.halted := rfl
@[simp] theorem tick_fault : (s.tick).fault = s.fault := rfl
@[simp] theorem tick_keys : (s.tick).keys = s.keys := rfl
@[simp] theorem tick_draws : (s.tick).draws = s.draws := rfl
@[simp] theorem tick_params : (s.tick).params = s.params := rfl
@[simp] theorem tick_getV (r : Index) : (s.tick).getV r = s.getV r := rfl
@[simp] theorem tick_byteAt (p : Nat) : (s.tick).byteAt p = s.byteAt p := rfl

/-! ## setKey -/

@[simp] theorem setKey_v (k : Index) (down : Bool) : (s.setKey k down).v = s.v := rfl
@[simp] theorem setKey_i (k : Index) (down : Bool) : (s.setKey k down).i = s.i := rfl
@[simp] theorem setKey_pc (k : Index) (down : Bool) : (s.setKey k down).pc = s.pc := rfl
@[simp] theorem setKey_stack (k : Index) (down : Bool) : (s.setKey k down).stack = s.stack := rfl
@[simp] theorem setKey_dt (k : Index) (down : Bool) : (s.setKey k down).dt = s.dt := rfl
@[simp] theorem setKey_st (k : Index) (down : Bool) : (s.setKey k down).st = s.st := rfl
@[simp] theorem setKey_mem (k : Index) (down : Bool) : (s.setKey k down).mem = s.mem := rfl
@[simp] theorem setKey_fb (k : Index) (down : Bool) : (s.setKey k down).fb = s.fb := rfl
@[simp] theorem setKey_halted (k : Index) (down : Bool) : (s.setKey k down).halted = s.halted := rfl
@[simp] theorem setKey_fault (k : Index) (down : Bool) : (s.setKey k down).fault = s.fault := rfl
@[simp] theorem setKey_keys (k : Index) (down : Bool) : (s.setKey k down).keys = s.keys.set k down := rfl
@[simp] theorem setKey_draws (k : Index) (down : Bool) : (s.setKey k down).draws = s.draws := rfl
@[simp] theorem setKey_params (k : Index) (down : Bool) : (s.setKey k down).params = s.params := rfl
@[simp] theorem setKey_getV (k : Index) (down : Bool) (r : Index) : (s.setKey k down).getV r = s.getV r := rfl
@[simp] theorem setKey_byteAt (k : Index) (down : Bool) (p : Nat) : (s.setKey k down).byteAt p = s.byteAt p := rfl

/-! ## withVfOrder -/

@[simp] theorem withVfOrder_v (o : VfOrder) : (s.withVfOrder o).v = s.v := rfl
@[simp] theorem withVfOrder_i (o : VfOrder) : (s.withVfOrder o).i = s.i := rfl
@[simp] theorem withVfOrder_pc (o : VfOrder) : (s.withVfOrder o).pc = s.pc := rfl
@[simp] theorem withVfOrder_stack (o : VfOrder) : (s.withVfOrder o).stack = s.stack := rfl
@[simp] theorem withVfOrder_dt (o : VfOrder) : (s.withVfOrder o).dt = s.dt := rfl
@[simp] theorem withVfOrder_st (o : VfOrder) : (s.withVfOrder o).st = s.st := rfl
@[simp] theorem withVfOrder_mem (o : VfOrder) : (s.withVfOrder o).mem = s.mem := rfl
@[simp] theorem withVfOrder_fb (o : VfOrder) : (s.withVfOrder o).fb = s.fb := rfl
@[simp] theorem withVfOrder_halted (o : VfOrder) : (s.withVfOrder o).halted = s.halted := rfl
@[simp] theorem withVfOrder_fault (o : VfOrder) : (s.withVfOrder o).fault = s.fault := rfl
@[simp] theorem withVfOrder_keys (o : VfOrder) : (s.withVfOrder o).keys = s.keys := rfl
@[simp] theorem withVfOrder_draws (o : VfOrder) : (s.withVfOrder o).draws = s.draws := rfl
@[simp] theorem withVfOrder_params (o : VfOrder) : (s.withVfOrder o).params = { s.params with vfOrder := o } := rfl
@[simp] theorem withVfOrder_getV (o : VfOrder) (r : Index) : (s.withVfOrder o).getV r = s.getV r := rfl
@[simp] theorem withVfOrder_byteAt (o : VfOrder) (p : Nat) : (s.withVfOrder o).byteAt p = s.byteAt p := rfl

/-! ## raise -/

@[simp] theorem raise_v (f : Fault) (word : Option Word) : (s.raise f word).v = s.v := rfl
@[simp] theorem raise_i (f : Fault) (word : Option Word) : (s.raise f word).i = s.i := rfl
@[simp] theorem raise_pc (f : Fault) (word : Option Word) : (s.raise f word).pc = s.pc := rfl
@[simp] theorem raise_stack (f : Fault) (word : Option Word) : (s.raise f word).stack = s.stack := rfl
@[simp] theorem raise_dt (f : Fault) (word : Option Word) : (s.raise f word).dt = s.dt := rfl
@[simp] theorem raise_st (f : Fault) (word : Option Word) : (s.raise f word).st = s.st := rfl
@[simp] theorem raise_mem (f : Fault) (word : Option Word) : (s.raise f word).mem = s.mem := rfl
@[simp] theorem raise_fb (f : Fault) (word : Option Word) : (s.raise f word).fb = s.fb := rfl
@[simp] theorem raise_halted (f : Fault) (word : Option Word) : (s.raise f word).halted = true := rfl
@[simp] theorem raise_fault (f : Fault) (word : Option Word) : (s.raise f word).fault = some { kind := f, pc := s.pc, word := word } := rfl
@[simp] theorem raise_keys (f : Fault) (word : Option Word) : (s.raise f word).keys = s.keys := rfl
@[simp] theorem raise_draws (f : Fault) (word : Option Word) : (s.raise f word).draws = s.draws := rfl
@[simp] theorem raise_params (f : Fault) (word : Option Word) : (s.raise f word).params = s.params := rfl
@[simp] theorem raise_getV (f : Fault) (word : Option Word) (r : Index) : (s.raise f word).getV r = s.getV r := rfl
@[simp] theorem raise_byteAt (f : Fault) (word : Option Word) (p : Nat) : (s.raise f word).byteAt p = s.byteAt p := rfl

/-! ## skipIf -/

@[simp] theorem skipIf_v (c : Bool) : (s.skipIf c).v = s.v := by
  unfold State.skipIf; split <;> rfl
@[simp] theorem skipIf_i (c : Bool) : (s.skipIf c).i = s.i := by
  unfold State.skipIf; split <;> rfl
@[simp] theorem skipIf_pc (c : Bool) : (s.skipIf c).pc = if c then s.pc + 4 else s.pc + 2 := by
  cases c <;> rfl
@[simp] theorem skipIf_stack (c : Bool) : (s.skipIf c).stack = s.stack := by
  unfold State.skipIf; split <;> rfl
@[simp] theorem skipIf_dt (c : Bool) : (s.skipIf c).dt = s.dt := by
  unfold State.skipIf; split <;> rfl
@[simp] theorem skipIf_st (c : Bool) : (s.skipIf c).st = s.st := by
  unfold State.skipIf; split <;> rfl
@[simp] theorem skipIf_mem (c : Bool) : (s.skipIf c).mem = s.mem := by
  unfold State.skipIf; split <;> rfl
@[simp] theorem skipIf_fb (c : Bool) : (s.skipIf c).fb = s.fb := by
  unfold State.skipIf; split <;> rfl
@[simp] theorem skipIf_halted (c : Bool) : (s.skipIf c).halted = s.halted := by
  unfold State.skipIf; split <;> rfl
@[simp] theorem skipIf_fault (c : Bool) : (s.skipIf c).fault = s.fault := by
  unfold State.skipIf; split <;> rfl
@[simp] theorem skipIf_keys (c : Bool) : (s.skipIf c).keys = s.keys := by
  unfold State.skipIf; split <;> rfl
@[simp] theorem skipIf_draws (c : Bool) : (s.skipIf c).draws = s.draws := by
  unfold State.skipIf; split <;> rfl
@[simp] theorem skipIf_params (c : Bool) : (s.skipIf c).params = s.params := by
  unfold State.skipIf; split <;> rfl
@[simp] theorem skipIf_getV (c : Bool) (r : Index) : (s.skipIf c).getV r = s.getV r := by
  unfold State.skipIf; split <;> rfl
@[simp] theorem skipIf_byteAt (c : Bool) (p : Nat) : (s.skipIf c).byteAt p = s.byteAt p := by
  unfold State.skipIf; split <;> rfl

/-! ## writeResultAndFlag -/

@[simp] theorem writeResultAndFlag_i (x : Index) (r f : Byte) (q : State → Byte) : (s.writeResultAndFlag x r f q).i = s.i := by
  unfold State.writeResultAndFlag; split <;> rfl
@[simp] theorem writeResultAndFlag_pc (x : Index) (r f : Byte) (q : State → Byte) : (s.writeResultAndFlag x r f q).pc = s.pc := by
  unfold State.writeResultAndFlag; split <;> rfl
@[simp] theorem writeResultAndFlag_stack (x : Index) (r f : Byte) (q : State → Byte) : (s.writeResultAndFlag x r f q).stack = s.stack := by
  unfold State.writeResultAndFlag; split <;> rfl
@[simp] theorem writeResultAndFlag_dt (x : Index) (r f : Byte) (q : State → Byte) : (s.writeResultAndFlag x r f q).dt = s.dt := by
  unfold State.writeResultAndFlag; split <;> rfl
@[simp] theorem writeResultAndFlag_st (x : Index) (r f : Byte) (q : State → Byte) : (s.writeResultAndFlag x r f q).st = s.st := by
  unfold State.writeResultAndFlag; split <;> rfl
@[simp] theorem writeResultAndFlag_mem (x : Index) (r f : Byte) (q : State → Byte) : (s.writeResultAndFlag x r f q).mem = s.mem := by
  unfold State.writeResultAndFlag; split <;> rfl
@[simp] theorem writeResultAndFlag_fb (x : Index) (r f : Byte) (q : State → Byte) : (s.writeResultAndFlag x r f q).fb = s.fb := by
  unfold State.writeResultAndFlag; split <;> rfl
@[simp] theorem writeResultAndFlag_halted (x : Index) (r f : Byte) (q : State → Byte) : (s.writeResultAndFlag x r f q).halted = s.halted := by
  unfold State.writeResultAndFlag; split <;> rfl
@[simp] theorem writeResultAndFlag_fault (x : Index) (r f : Byte) (q : State → Byte) : (s.writeResultAndFlag x r f q).fault = s.fault := by
  unfold State.writeResultAndFlag; split <;> rfl
@[simp] theorem writeResultAndFlag_keys (x : Index) (r f : Byte) (q : State → Byte) : (s.writeResultAndFlag x r f q).keys = s.keys := by
  unfold State.writeResultAndFlag; split <;> rfl
@[simp] theorem writeResultAndFlag_draws (x : Index) (r f : Byte) (q : State → Byte) : (s.writeResultAndFlag x r f q).draws = s.draws := by
  unfold State.writeResultAndFlag; split <;> rfl
@[simp] theorem writeResultAndFlag_params (x : Index) (r f : Byte) (q : State → Byte) : (s.writeResultAndFlag x r f q).params = s.params := by
  unfold State.writeResultAndFlag; split <;> rfl
@[simp] theorem writeResultAndFlag_byteAt (x : Index) (r f : Byte) (q : State → Byte) (p : Nat) : (s.writeResultAndFlag x r f q).byteAt p = s.byteAt p := by
  unfold State.writeResultAndFlag; split <;> rfl

end Sys2Proof.Machine.State
end

