-- ==== Sys2Proof/Laws/Memory.lean ====
section
/-! SUPPORT. Memory: every operation keeps the canonical form, and a read after a write. -/

namespace Sys2Proof.Machine.Memory

variable {font : Vector Byte 80}

/-- The canonical form, one cell off. -/
theorem wfFrom_cons {lo k : Nat} {b : Byte} {m : Memory} :
    wfFrom font lo ((k, b) :: m) = true ↔
      lo ≤ k ∧ k < 4096 ∧ b ≠ unlisted font k ∧ wfFrom font (k + 1) m = true := by
  simp [wfFrom, and_assoc]

/-- A list canonical from hi on is canonical from any lower address on. -/
theorem wfFrom_mono {lo hi : Nat} {m : Memory} (h : wfFrom font hi m = true) (hlo : lo ≤ hi) :
    wfFrom font lo m = true := by
  cases m with
  | nil => rfl
  | cons c m =>
    obtain ⟨k, b⟩ := c
    rw [wfFrom_cons] at h ⊢
    exact ⟨by omega, h.2⟩

/-- Below the first listed address every address reads as unlisted. -/
theorem read_below {lo a : Nat} {m : Memory} (h : wfFrom font lo m = true) (ha : a < lo) :
    read font m a = unlisted font a := by
  induction m generalizing lo with
  | nil => rfl
  | cons c m ih =>
    obtain ⟨k, b⟩ := c
    rw [wfFrom_cons] at h
    rw [read, if_neg (by omega)]
    exact ih h.2.2.2 (by omega)

theorem wfFrom_consCell {lo a : Nat} {b : Byte} {m : Memory} (hlo : lo ≤ a) (ha : a < 4096)
    (h : wfFrom font (a + 1) m = true) : wfFrom font lo (cons font a b m) = true := by
  unfold cons
  split
  · exact wfFrom_mono h (by omega)
  · rw [wfFrom_cons]
    exact ⟨hlo, ha, ‹_›, h⟩

theorem wfFrom_write {lo a : Nat} {b : Byte} {m : Memory} (h : wfFrom font lo m = true) (hlo : lo ≤ a)
    (ha : a < 4096) : wfFrom font lo (write font m a b) = true := by
  induction m generalizing lo with
  | nil => exact wfFrom_consCell hlo ha rfl
  | cons c m ih =>
    obtain ⟨k, d⟩ := c
    have hc := wfFrom_cons.mp h
    unfold write
    split
    · exact wfFrom_consCell hlo ha (wfFrom_cons.mpr ⟨by omega, hc.2⟩)
    · split
      · subst a
        exact wfFrom_consCell hlo ha hc.2.2.2
      · exact wfFrom_cons.mpr ⟨hc.1, hc.2.1, hc.2.2.1, ih hc.2.2.2 (by omega)⟩

/-- A write below 4096 keeps the canonical form. -/
theorem wf_write {a : Nat} {b : Byte} {m : Memory} (h : wf font m = true) (ha : a < 4096) :
    wf font (write font m a b) = true :=
  wfFrom_write h (Nat.zero_le a) ha

/-- A transfer that ends below 4096 keeps the canonical form. -/
theorem wf_writeList {a : Nat} {bs : List Byte} {m : Memory} (h : wf font m = true) (ha : a + bs.length ≤ 4096) :
    wf font (writeList font m a bs) = true := by
  induction bs generalizing m a with
  | nil => exact h
  | cons b bs ih =>
    simp only [List.length_cons] at ha
    exact ih (wf_write h (by omega)) (by omega)

theorem read_consCell {a a' : Nat} {b : Byte} {m : Memory} (h : wfFrom font (a + 1) m = true) :
    read font (cons font a b m) a' = if a' = a then b else read font m a' := by
  unfold cons
  by_cases hb : b = unlisted font a
  · rw [if_pos hb]
    split
    · subst a'
      rw [hb]
      exact read_below h (Nat.lt_succ_self a)
    · rfl
  · rw [if_neg hb, read]
    simp only [eq_comm]

/-- A read after a write, in a canonical memory: the value written at its address, elsewhere what was there. -/
theorem read_write {lo a a' : Nat} {b : Byte} {m : Memory} (h : wfFrom font lo m = true) :
    read font (write font m a b) a' = if a' = a then b else read font m a' := by
  induction m generalizing lo with
  | nil => exact read_consCell rfl
  | cons c m ih =>
    obtain ⟨k, d⟩ := c
    have hc := wfFrom_cons.mp h
    unfold write
    split
    · exact read_consCell (wfFrom_cons.mpr ⟨by omega, hc.2⟩)
    · split
      · subst a
        rw [read_consCell hc.2.2.2]
        split
        · rfl
        · rw [read, if_neg (Ne.symm ‹_›)]
      · rw [read, read, ih hc.2.2.2]
        by_cases hk : k = a'
        · rw [if_pos hk, if_pos hk, if_neg (by omega)]
        · rw [if_neg hk, if_neg hk]

/-- A read after a transfer: inside it the byte transferred there, outside it what was there. -/
theorem read_writeList {a a' : Nat} {bs : List Byte} {m : Memory} (h : wf font m = true)
    (ha : a + bs.length ≤ 4096) :
    read font (writeList font m a bs) a' =
      if a ≤ a' then (bs[a' - a]?).getD (read font m a') else read font m a' := by
  induction bs generalizing m a with
  | nil => simp [writeList]
  | cons b bs ih =>
    simp only [List.length_cons] at ha
    rw [writeList, ih (wf_write h (by omega)) (by omega), read_write h]
    by_cases h1 : a + 1 ≤ a'
    · have hs : a' - a = (a' - (a + 1)) + 1 := by omega
      have h2 : a ≤ a' := by omega
      have h3 : ¬a' = a := by omega
      rw [if_pos h1, if_pos h2, if_neg h3, hs, List.getElem?_cons_succ]
    · rw [if_neg h1]
      by_cases h2 : a' = a
      · subst h2
        simp
      · have h3 : ¬a ≤ a' := by omega
        rw [if_neg h2, if_neg h3]

/-- The empty list, memory as reset leaves it, is canonical. -/
theorem wf_nil : wf font [] = true := rfl

end Sys2Proof.Machine.Memory

namespace Sys2Proof.Machine.State

/-- Memory as reset leaves it is canonical. -/
theorem reset_memory_wf : Memory.wf State.reset.params.font State.reset.mem = true := rfl

/-- A store whose bytes all lie below 4096 keeps the canonical form. -/
theorem storeBytes_wf (s : State) {a : Nat} {bs : List Byte} (h : Memory.wf s.params.font s.mem = true)
    (ha : a + bs.length ≤ 4096) : Memory.wf (s.storeBytes a bs).params.font (s.storeBytes a bs).mem = true :=
  Memory.wf_writeList h ha

/-- Reading memory after a store. -/
theorem storeBytes_byteAt (s : State) {a a' : Nat} {bs : List Byte} (h : Memory.wf s.params.font s.mem = true)
    (ha : a + bs.length ≤ 4096) :
    (s.storeBytes a bs).byteAt a' = if a ≤ a' then (bs[a' - a]?).getD (s.byteAt a') else s.byteAt a' :=
  Memory.read_writeList h ha

/-- A store leaves every byte outside it unchanged. -/
theorem storeBytes_keeps (s : State) {a count : Nat} {bs : List Byte} (h : Memory.wf s.params.font s.mem = true)
    (ha : a + bs.length ≤ 4096) (hc : bs.length = count) : KeepsBytesOutside a count s (s.storeBytes a bs) := by
  intro p hp
  rw [storeBytes_byteAt s h ha]
  split
  · rw [List.getElem?_eq_none (by omega)]
    rfl
  · rfl

end Sys2Proof.Machine.State
end

