-- ==== Sys2Proof/Laws/Ops.lean ====
section
/-! SUPPORT. One lemma per shared operation, saying all it can do. -/

namespace Sys2Proof.Machine

/-! ## Memory's reset contents -/

/-- The font bytes are what 0x050..0x09F read as until written (spec/10_state.md R32, R37). -/
theorem Memory.unlisted_font (font : Vector Byte 80) (k : Fin 80) :
    Memory.unlisted font (0x050 + k) = font[k] := by
  simp [Memory.unlisted]

/-- Every other address reads as 0x00 until written (spec/10_state.md R37). -/
theorem Memory.unlisted_zero (font : Vector Byte 80) {a : Nat} (h : a < 0x050 ∨ 0x0A0 ≤ a) :
    Memory.unlisted font a = 0x00 := by
  unfold Memory.unlisted
  split
  · rw [Vector.getElem?_eq_none (by omega)]
    rfl
  · rfl

/-! ## The bounds check -/

theorem boundsFault_none {base count : Nat} :
    boundsFault base count = none ↔ count = 0 ∨ base + count ≤ 4096 := by
  unfold boundsFault
  split
  · simp only [reduceCtorEq, false_iff]
    omega
  · simp only [true_iff]
    omega

theorem boundsFault_some {base count : Nat} {f : Fault} :
    boundsFault base count = some f ↔
      (count ≠ 0 ∧ 4096 < base + count) ∧ f = .memoryOutOfBounds (max base 4096) := by
  unfold boundsFault
  split
  · simp only [Option.some.injEq]
    constructor
    · rintro rfl
      exact ⟨by omega, rfl⟩
    · exact fun h => h.2.symm
  · simp only [reduceCtorEq, false_iff]
    omega

/-! ## Registers -/

theorem State.setV_getV (s : State) (x k : Index) (b : Byte) :
    (s.setV x b).getV k = if k = x then b else s.getV k := by
  simp only [State.getV, State.setV, Fin.getElem_fin, Vector.getElem_set, Fin.ext_iff, eq_comm]

@[simp] theorem State.setV_getV_same (s : State) (x : Index) (b : Byte) : (s.setV x b).getV x = b := by
  simp [State.setV_getV]

theorem State.setV_getV_ne (s : State) {x k : Index} (b : Byte) (h : k ≠ x) :
    (s.setV x b).getV k = s.getV k := by
  simp [State.setV_getV, h]

theorem State.loadV_getV (s : State) (bs : List Byte) (k : Index) :
    (s.loadV bs).getV k = bs[k.val]?.getD (s.getV k) := by
  simp [State.getV, State.loadV]

theorem State.regsUpTo_length (s : State) (x : Index) : (s.regsUpTo x).length = x.val + 1 := by
  simp [State.regsUpTo]

theorem State.regsUpTo_getElem? (s : State) (x k : Index) (h : k ≤ x) :
    (s.regsUpTo x)[k.val]? = some (s.getV k) := by
  have hk : k.val < x.val + 1 := Nat.lt_succ_of_le h
  simp [State.regsUpTo, State.getV, hk]

theorem State.bytesAt_length (s : State) (a count : Nat) : (s.bytesAt a count).length = count := by
  simp [State.bytesAt]

theorem State.bytesAt_getElem? (s : State) {a count k : Nat} (h : k < count) :
    (s.bytesAt a count)[k]? = some (s.byteAt (a + k)) := by
  simp [State.bytesAt, h]

/-- The flag-and-result write: what each register holds after it, under each order (spec/41_register_alu.md R120). -/
theorem State.writeResultAndFlag_getV (s : State) (x k : Index) (r f : Byte) (q : State → Byte) :
    (s.writeResultAndFlag x r f q).getV k =
      if k = VF ∧ (x ≠ VF ∨ s.params.vfOrder = .flagLast) then f
      else if k = x then (if s.params.vfOrder = .sequential then q (s.setV VF f) else r)
      else s.getV k := by
  unfold State.writeResultAndFlag
  rcases eq_or_ne k x with rfl | hx <;> rcases eq_or_ne k VF with rfl | hf <;>
    cases s.params.vfOrder <;> simp_all [State.setV_getV, Ne.symm]

/-! ## The return stack -/

theorem State.stackFull_iff (s : State) : s.stackFull = true ↔ s.params.stackDepth = some s.stack.length := by
  unfold State.stackFull
  cases s.params.stackDepth with
  | none => simp
  | some d => rw [beq_iff_eq, Option.some.injEq, eq_comm]

/-! ## Keys -/

theorem State.keyAt_key (s : State) {b : Byte} (h : b.toNat < 16) : s.keyAt b = some s.keys[b.toNat] := by
  simp [State.keyAt, h]

theorem State.keyAt_none (s : State) {b : Byte} (h : 15 < b.toNat) : s.keyAt b = none :=
  Vector.getElem?_eq_none h

theorem firstPressed_some {ks : List Bool} {base k : Nat} (h : firstPressed ks base = some k) :
    base ≤ k ∧ ks[k - base]? = some true ∧ ∀ j, base ≤ j → j < k → ks[j - base]? = some false := by
  induction ks generalizing base with
  | nil => simp [firstPressed] at h
  | cons down ks ih =>
    unfold firstPressed at h
    split at h
    · obtain rfl : base = k := Option.some.inj h
      refine ⟨Nat.le_refl _, by simp_all, fun j h1 h2 => absurd h2 (by omega)⟩
    · obtain ⟨h1, h2, h3⟩ := ih h
      have hk : k - base = (k - (base + 1)) + 1 := by omega
      refine ⟨by omega, by rw [hk, List.getElem?_cons_succ, h2], fun j hj1 hj2 => ?_⟩
      rcases Nat.eq_or_lt_of_le hj1 with rfl | hj
      · simp_all
      · have hjk : j - base = (j - (base + 1)) + 1 := by omega
        rw [hjk, List.getElem?_cons_succ, h3 j hj hj2]

theorem firstPressed_none {ks : List Bool} {base : Nat} : firstPressed ks base = none ↔ ∀ b ∈ ks, b = false := by
  induction ks generalizing base with
  | nil => simp [firstPressed]
  | cons down ks ih =>
    unfold firstPressed
    cases down <;> simp [ih]

/-- The key Fx0A reads is pressed, and no key of a lower index is (spec/44_keys_timers.md R192). -/
theorem State.lowestKey_some {s : State} {k : Nat} (h : s.lowestKey = some k) :
    s.keys[k]? = some true ∧ ∀ j, j < k → s.keys[j]? = some false := by
  obtain ⟨-, h2, h3⟩ := firstPressed_some h
  refine ⟨by simpa using h2, fun j hj => by simpa using h3 j (Nat.zero_le j) hj⟩

theorem State.lowestKey_none {s : State} : s.lowestKey = none ↔ ∀ k : Index, s.keys[k] = false := by
  unfold State.lowestKey
  rw [firstPressed_none]
  constructor
  · exact fun h k => h _ (by simp)
  · intro h b hb
    obtain ⟨k, hk, rfl⟩ := List.mem_iff_getElem.mp hb
    simpa using h ⟨k, by simpa using hk⟩

/-! ## The frame buffer -/

@[simp] theorem framePixel_blank (p : Pixel) : framePixel blankFrame p = false := by
  simp [framePixel, blankFrame]

theorem framePixel_flip (fb : Frame) (p q : Pixel) :
    framePixel (frameFlip fb p) q = (framePixel fb q ^^ decide (q = p)) := by
  obtain ⟨pc, pr⟩ := p
  obtain ⟨qc, qr⟩ := q
  simp only [framePixel, frameFlip, Fin.getElem_fin, Vector.getElem_set, Prod.mk.injEq]
  by_cases hr : pr = qr
  · subst hr
    simp [Fin.ext_iff, eq_comm]
  · simp [Fin.val_ne_of_ne hr, Ne.symm hr]

/-- Two frames with the same pixels are equal. -/
theorem frame_ext {f g : Frame} (h : ∀ p, framePixel f p = framePixel g p) : f = g := by
  apply Vector.ext
  intro r hr
  apply BitVec.eq_of_getLsbD_eq
  intro c hc
  exact h (⟨c, hc⟩, ⟨r, hr⟩)

/-- Drawing pixels that are all distinct: each is XORed, and the hit says whether one of them was set
(spec/43_draw_engine.md R171, R172). -/
theorem drawPixels_spec (ps : List Pixel) (hps : ps.Nodup) (fb : Frame) (hit : Bool) :
    (∀ q, framePixel (drawPixels fb hit ps).1 q = (framePixel fb q ^^ decide (q ∈ ps))) ∧
      (drawPixels fb hit ps).2 = (hit || ps.any (framePixel fb)) := by
  induction ps generalizing fb hit with
  | nil => simp [drawPixels]
  | cons p ps ih =>
    obtain ⟨hp, hps⟩ := List.nodup_cons.mp hps
    obtain ⟨h1, h2⟩ := ih hps (frameFlip fb p) (hit || framePixel fb p)
    refine ⟨fun q => ?_, ?_⟩
    · rw [drawPixels, h1, framePixel_flip]
      by_cases hq : q = p
      · subst hq
        simp [hp]
      · simp [hq]
    · have hany : ps.any (framePixel (frameFlip fb p)) = ps.any (framePixel fb) := by
        rw [Bool.eq_iff_iff, List.any_eq_true, List.any_eq_true]
        refine exists_congr fun q => and_congr_right fun hq => ?_
        rw [framePixel_flip, decide_eq_false (fun h : q = p => hp (h ▸ hq)), Bool.xor_false]
      rw [drawPixels, h2, hany, List.any_cons, Bool.or_assoc]

/-! ## Sprites -/

/-- The positions one sprite byte sets (spec/43_draw_engine.md R171). -/
theorem mem_rowPixels {cx py : Nat} {row : Byte} {p : Pixel} :
    p ∈ rowPixels cx py row ↔
      ∃ c, c < 8 ∧ row.getLsbD (7 - c) = true ∧ p.1.val = (cx + c) % 64 ∧ p.2.val = py % 32 := by
  simp only [rowPixels, List.mem_filterMap, List.mem_range]
  refine exists_congr fun c => and_congr_right fun _ => ?_
  split
  · simp only [*, Option.some.injEq, true_and]
    constructor
    · rintro rfl
      exact ⟨rfl, rfl⟩
    · exact fun h => Prod.ext (Fin.ext h.1.symm) (Fin.ext h.2.symm)
  · simp_all

/-- The positions a sprite sets: the set S of spec/43_draw_engine.md R172. -/
theorem mem_spritePixels {cx cy : Nat} {rows : List Byte} {p : Pixel} :
    p ∈ spritePixels cx cy rows ↔
      ∃ r c, r < rows.length ∧ c < 8 ∧ (rows[r]?.getD 0).getLsbD (7 - c) = true ∧
        p.1.val = (cx + c) % 64 ∧ p.2.val = (cy + r) % 32 := by
  induction rows generalizing cy with
  | nil => simp [spritePixels]
  | cons row rows ih =>
    rw [spritePixels, List.mem_append, mem_rowPixels, ih]
    constructor
    · rintro (⟨c, h1, h2, h3, h4⟩ | ⟨r, c, h0, h1, h2, h3, h4⟩)
      · exact ⟨0, c, by simp, h1, by simpa using h2, h3, by simpa using h4⟩
      · exact ⟨r + 1, c, by simpa using h0, h1, by simpa using h2, h3, by rw [h4]; congr 1; omega⟩
    · rintro ⟨r, c, h0, h1, h2, h3, h4⟩
      cases r with
      | zero => exact .inl ⟨c, h1, by simpa using h2, h3, by simpa using h4⟩
      | succ r => exact .inr ⟨r, c, by simpa using h0, h1, by simpa using h2, h3, by rw [h4]; congr 1; omega⟩

/-- The coordinate a draw reads, under each order (spec/43_draw_engine.md R171). -/
theorem State.drawRegs_coordinate (s : State) (x : Index) : s.drawRegs[x].toNat = drawCoordinate s x := by
  have hset : (s.v.set VF 0x00)[x] = if x = VF then 0x00 else s.v[x] := State.setV_getV s VF x 0x00
  unfold State.drawRegs drawCoordinate
  cases s.params.vfOrder <;> simp only [hset, reduceCtorEq, false_and, if_false, true_and]
  · rfl
  · rfl
  · split <;> rfl

/-- The positions Dxyn XORs are the ones its sprite covers (spec/43_draw_engine.md R171). -/
theorem State.mem_drawnPixels (s : State) (x y n : Index) (p : Pixel) :
    p ∈ s.drawnPixels x y n ↔ SpriteCovers s (drawCoordinate s x) (drawCoordinate s y) n.val p := by
  rw [State.drawnPixels, mem_spritePixels, State.bytesAt_length, State.drawRegs_coordinate,
    State.drawRegs_coordinate]
  refine exists_congr fun r => exists_congr fun c => and_congr_right fun hr => ?_
  rw [State.bytesAt_getElem? s hr]
  rfl

/-! ## Images -/

theorem imageWellFormed_iff {image : List Byte} : imageWellFormed image = true ↔ image.length ≤ 3584 :=
  decide_eq_true_iff

/-! ## Fetch and step -/

/-- What a fetch finds, in the order of spec/60_exceptions.md R219. -/
theorem State.fetch_cases (s : State) :
    (4096 < s.pc.toNat + 2 ∧ s.fetch = .raised (.memoryOutOfBounds (max s.pc.toNat 4096)) none) ∨
      (s.pc.toNat + 2 ≤ 4096 ∧ decode (s.wordAt s.pc.toNat) = none ∧
        s.fetch = .raised .unknownOpcode (some (s.wordAt s.pc.toNat))) ∨
      (s.pc.toNat + 2 ≤ 4096 ∧ ∃ i, decode (s.wordAt s.pc.toNat) = some i ∧ s.fetch = .instr i) := by
  unfold State.fetch
  rcases hb : boundsFault s.pc.toNat 2 with _ | f
  · have hle : s.pc.toNat + 2 ≤ 4096 := by
      rcases boundsFault_none.mp hb with h | h <;> omega
    rcases hd : decode (s.wordAt s.pc.toNat) with _ | i
    · exact .inr (.inl ⟨hle, rfl, rfl⟩)
    · exact .inr (.inr ⟨hle, i, rfl, rfl⟩)
  · obtain ⟨h, rfl⟩ := boundsFault_some.mp hb
    exact .inl ⟨h.2, rfl⟩

/-- All a step can do: nothing when halted; else halt on the fetch or on an Unknown word; else run the instruction
(spec/30_encoding.md R70). -/
theorem step_cases (s : State) :
    (s.halted = true ∧ step s = .next s) ∨
      (s.halted = false ∧ 4096 < s.pc.toNat + 2 ∧
        step s = .next (s.raise (.memoryOutOfBounds (max s.pc.toNat 4096)) none)) ∨
      (s.halted = false ∧ s.pc.toNat + 2 ≤ 4096 ∧ decode (s.wordAt s.pc.toNat) = none ∧
        step s = .next (s.raise .unknownOpcode (some (s.wordAt s.pc.toNat)))) ∨
      (s.halted = false ∧ s.pc.toNat + 2 ≤ 4096 ∧ ∃ i, decode (s.wordAt s.pc.toNat) = some i ∧ step s = exec i s) := by
  unfold step
  rcases hh : s.halted with _ | _
  · rcases s.fetch_cases with ⟨h, hf⟩ | ⟨h, hd, hf⟩ | ⟨h, i, hd, hf⟩ <;> rw [hf]
    · exact .inr (.inl ⟨rfl, h, rfl⟩)
    · exact .inr (.inr (.inl ⟨rfl, h, hd, rfl⟩))
    · exact .inr (.inr (.inr ⟨rfl, h, i, hd, rfl⟩))
  · exact .inl ⟨rfl, rfl⟩

/-- Taking a fault halts the block with its record and changes nothing else (spec/60_exceptions.md R216). -/
theorem State.raise_haltsWith (s : State) (f : Fault) (word : Option Word) : HaltsWith f word s (s.raise f word) := by
  refine ⟨rfl, rfl, fun p hp => ?_⟩
  cases p <;> simp_all [Part.same]

end Sys2Proof.Machine
end

