-- ==== Sys2Proof/Laws/Encoding.lean ====
section
/-! SUPPORT. The fields of an encoded word (spec/30_encoding.md R73, R79), one lemma per field and format. -/

namespace Sys2Proof

@[simp] theorem nibble_toFin (x : Index) : (nibble x).toFin = x := rfl

@[simp] theorem nibble_inj {x y : Index} : nibble x = nibble y ↔ x = y :=
  ⟨fun h => congrArg BitVec.toFin h, fun h => congrArg nibble h⟩

section
variable (p : BitVec 4) (x y n : Index) (nn : Byte) (nnn : Addr12)

/-- The bits of a word in format FA. -/
theorem getLsbD_encodeFA (k : Nat) :
    (encodeFA p nnn).getLsbD k = if k < 12 then nnn.getLsbD k else p.getLsbD (k - 12) := BitVec.getLsbD_append

/-- The bits of a word in formats FB and FX. -/
theorem getLsbD_encodeFB (k : Nat) :
    (encodeFB p x nn).getLsbD k =
      if k < 8 then nn.getLsbD k
      else if k - 8 < 4 then (nibble x).getLsbD (k - 8) else p.getLsbD (k - 8 - 4) := by
  refine BitVec.getLsbD_append.trans ?_
  rw [BitVec.getLsbD_append]

/-- The bits of a word in formats FR and FD. -/
theorem getLsbD_encodeFR (k : Nat) :
    (encodeFR p x y n).getLsbD k =
      if k < 4 then (nibble n).getLsbD k
      else if k - 4 < 4 then (nibble y).getLsbD (k - 4)
      else if k - 4 - 4 < 4 then (nibble x).getLsbD (k - 4 - 4) else p.getLsbD (k - 4 - 4 - 4) := by
  refine BitVec.getLsbD_append.trans ?_
  rw [BitVec.getLsbD_append, BitVec.getLsbD_append]

@[simp] theorem fieldP_encodeFA : fieldP (encodeFA p nnn) = p := by
  apply BitVec.eq_of_getLsbD_eq
  intro k hk
  rw [fieldP, BitVec.getLsbD_extractLsb', getLsbD_encodeFA, decide_eq_true hk, Bool.true_and]
  rw [if_neg (by omega)]
  congr 1
  omega

@[simp] theorem fieldNNN_encodeFA : fieldNNN (encodeFA p nnn) = nnn := by
  apply BitVec.eq_of_getLsbD_eq
  intro k hk
  rw [fieldNNN, BitVec.getLsbD_extractLsb', getLsbD_encodeFA, decide_eq_true hk, Bool.true_and]
  rw [if_pos (by omega)]
  congr 1
  omega

@[simp] theorem fieldP_encodeFB : fieldP (encodeFB p x nn) = p := by
  apply BitVec.eq_of_getLsbD_eq
  intro k hk
  rw [fieldP, BitVec.getLsbD_extractLsb', getLsbD_encodeFB, decide_eq_true hk, Bool.true_and]
  rw [if_neg (by omega), if_neg (by omega)]
  congr 1
  omega

@[simp] theorem fieldX_encodeFB : fieldX (encodeFB p x nn) = x := by
  suffices h : (encodeFB p x nn).extractLsb' 8 4 = nibble x from congrArg BitVec.toFin h
  apply BitVec.eq_of_getLsbD_eq
  intro k hk
  rw [BitVec.getLsbD_extractLsb', getLsbD_encodeFB, decide_eq_true hk, Bool.true_and]
  rw [if_neg (by omega), if_pos (by omega)]
  congr 1
  omega

@[simp] theorem fieldNN_encodeFB : fieldNN (encodeFB p x nn) = nn := by
  apply BitVec.eq_of_getLsbD_eq
  intro k hk
  rw [fieldNN, BitVec.getLsbD_extractLsb', getLsbD_encodeFB, decide_eq_true hk, Bool.true_and]
  rw [if_pos (by omega)]
  congr 1
  omega

@[simp] theorem fieldP_encodeFR : fieldP (encodeFR p x y n) = p := by
  apply BitVec.eq_of_getLsbD_eq
  intro k hk
  rw [fieldP, BitVec.getLsbD_extractLsb', getLsbD_encodeFR, decide_eq_true hk, Bool.true_and]
  rw [if_neg (by omega), if_neg (by omega), if_neg (by omega)]
  congr 1
  omega

@[simp] theorem fieldX_encodeFR : fieldX (encodeFR p x y n) = x := by
  suffices h : (encodeFR p x y n).extractLsb' 8 4 = nibble x from congrArg BitVec.toFin h
  apply BitVec.eq_of_getLsbD_eq
  intro k hk
  rw [BitVec.getLsbD_extractLsb', getLsbD_encodeFR, decide_eq_true hk, Bool.true_and]
  rw [if_neg (by omega), if_neg (by omega), if_pos (by omega)]
  congr 1
  omega

@[simp] theorem fieldY_encodeFR : fieldY (encodeFR p x y n) = y := by
  suffices h : (encodeFR p x y n).extractLsb' 4 4 = nibble y from congrArg BitVec.toFin h
  apply BitVec.eq_of_getLsbD_eq
  intro k hk
  rw [BitVec.getLsbD_extractLsb', getLsbD_encodeFR, decide_eq_true hk, Bool.true_and]
  rw [if_neg (by omega), if_pos (by omega)]
  congr 1
  omega

@[simp] theorem fieldN_encodeFR : fieldN (encodeFR p x y n) = n := by
  suffices h : (encodeFR p x y n).extractLsb' 0 4 = nibble n from congrArg BitVec.toFin h
  apply BitVec.eq_of_getLsbD_eq
  intro k hk
  rw [BitVec.getLsbD_extractLsb', getLsbD_encodeFR, decide_eq_true hk, Bool.true_and]
  rw [if_pos (by omega)]
  congr 1
  omega

end

/-- A word is its prefix and its address field (format FA). -/
theorem encodeFA_fields (w : Word) : encodeFA (fieldP w) (fieldNNN w) = w := by
  apply BitVec.eq_of_getLsbD_eq
  intro k hk
  simp only [encodeFA, fieldP, fieldNNN, BitVec.getLsbD_append, BitVec.getLsbD_extractLsb']
  split
  · simp_all
  · rw [decide_eq_true (by omega), Bool.true_and]
    congr 1
    omega

/-- A word is its prefix, its register field and its low byte (formats FB and FX). -/
theorem encodeFB_fields (w : Word) : encodeFB (fieldP w) (fieldX w) (fieldNN w) = w := by
  apply BitVec.eq_of_getLsbD_eq
  intro k hk
  simp only [encodeFB, fieldP, fieldX, fieldNN, nibble, BitVec.ofFin_toFin, BitVec.getLsbD_append,
    BitVec.getLsbD_extractLsb']
  split
  · simp_all
  · split <;> (rw [decide_eq_true (by omega), Bool.true_and]; congr 1; omega)

/-- A word is its four nibbles (formats FR and FD). -/
theorem encodeFR_fields (w : Word) : encodeFR (fieldP w) (fieldX w) (fieldY w) (fieldN w) = w := by
  apply BitVec.eq_of_getLsbD_eq
  intro k hk
  simp only [encodeFR, fieldP, fieldX, fieldY, fieldN, nibble, BitVec.ofFin_toFin, BitVec.getLsbD_append,
    BitVec.getLsbD_extractLsb']
  split
  · simp_all
  · split
    · rw [decide_eq_true (by omega), Bool.true_and]
      congr 1
      omega
    · split <;> (rw [decide_eq_true (by omega), Bool.true_and]; congr 1; omega)

/-- The mask of a pattern that fixes only the prefix. -/
theorem and_F000 (w : Word) : w &&& 0xF000#16 = encodeFA (fieldP w) 0 := by
  apply BitVec.eq_of_getLsbD_eq
  intro k hk
  rw [BitVec.getLsbD_and, getLsbD_encodeFA, fieldP, BitVec.getLsbD_extractLsb']
  interval_cases k <;> simp

/-- The mask of a pattern that fixes the prefix and the low nibble. -/
theorem and_F00F (w : Word) : w &&& 0xF00F#16 = encodeFR (fieldP w) 0 0 (fieldN w) := by
  apply BitVec.eq_of_getLsbD_eq
  intro k hk
  rw [BitVec.getLsbD_and, getLsbD_encodeFR, fieldP, fieldN, nibble, nibble, BitVec.ofFin_toFin,
    BitVec.getLsbD_extractLsb', BitVec.getLsbD_extractLsb']
  interval_cases k <;> simp

/-- The mask of a pattern that fixes the prefix and the low byte. -/
theorem and_F0FF (w : Word) : w &&& 0xF0FF#16 = encodeFB (fieldP w) 0 (fieldNN w) := by
  apply BitVec.eq_of_getLsbD_eq
  intro k hk
  rw [BitVec.getLsbD_and, getLsbD_encodeFB, fieldP, fieldNN, nibble,
    BitVec.getLsbD_extractLsb', BitVec.getLsbD_extractLsb']
  interval_cases k <;> simp

/-- A word stored as its high byte and its low byte is read back (spec/20_memory.md R51). -/
@[simp] theorem joinBytes_split (w : Word) : joinBytes (highByte w) (lowByte w) = w := by
  apply BitVec.eq_of_getLsbD_eq
  intro k hk
  refine BitVec.getLsbD_append.trans ?_
  rw [highByte, lowByte, BitVec.getLsbD_extractLsb', BitVec.getLsbD_extractLsb']
  split
  · simp_all
  · rw [decide_eq_true (by omega), Bool.true_and]
    congr 1
    omega

end Sys2Proof
end

