-- ==== Sys2Proof/Laws/Exec.lean ====
section
/-! SUPPORT. What running one instruction can do, said once: it completes, or it takes the one fault its rule names. -/

namespace Sys2Proof.Machine

/-- The condition under which an instruction raises a fault (spec/60_exceptions.md R210, R219). -/
def RaisesIn (i : Instr) (s : State) : Fault → Prop
  | .unknownOpcode => False
  | .stackUnderflow => i = .ret ∧ s.stack = []
  | .stackOverflow => (∃ nnn, i = .call nnn) ∧ s.params.stackDepth = some s.stack.length
  | .memoryOutOfBounds a =>
    ∃ n, transferLength i = some n ∧ 0 < n ∧ 4096 < s.i.toNat + n ∧ a = max s.i.toNat 4096
  | .keyIndexOutOfRange k => 0xF < k.toNat ∧ ∃ x, (i = .skp x ∨ i = .sknp x) ∧ s.getV x = k

/-- An instruction that completes leaves the status, the inputs and the parameters as they were. -/
def Completes (s t : State) : Prop :=
  t.halted = s.halted ∧ t.fault = s.fault ∧ t.keys = s.keys ∧ t.params = s.params

/-- A transfer through I is in bounds, or the fault its bounds check raises is the one the spec names. -/
theorem boundsFault_cases {i : Instr} {s : State} {n : Nat} (h : transferLength i = some n) :
    (boundsFault s.indexBase n = none ∧ (n = 0 ∨ s.i.toNat + n ≤ 4096)) ∨
      ∃ f, boundsFault s.indexBase n = some f ∧ RaisesIn i s f := by
  rcases hb : boundsFault s.indexBase n with _ | f
  · exact .inl ⟨rfl, boundsFault_none.mp hb⟩
  · obtain ⟨⟨h1, h2⟩, rfl⟩ := boundsFault_some.mp hb
    exact .inr ⟨_, rfl, n, h, Nat.pos_of_ne_zero h1, h2, rfl⟩

/-- Running an instruction answers a next state: its own effect, or the halt on the fault its rule names. -/
theorem exec_cases (i : Instr) (s : State) :
    (∃ f, exec i s = .next (s.raise f (some (encode i))) ∧ RaisesIn i s f) ∨
      ∃ t, exec i s = .next t ∧ Completes s t := by
  cases i
  case ret =>
    rcases hs : s.stack.getLast? with _ | v
    · refine .inl ⟨.stackUnderflow, ?_, rfl, List.getLast?_eq_none_iff.mp hs⟩
      simp only [exec, execRet, hs, raiseIn]
    · refine .inr ⟨s.dropTop.setPc v, ?_, rfl, rfl, rfl, rfl⟩
      simp only [exec, execRet, hs]
  case call nnn =>
    by_cases hf : s.stackFull = true
    · refine .inl ⟨.stackOverflow, ?_, ⟨nnn, rfl⟩, s.stackFull_iff.mp hf⟩
      simp only [exec, execCall, hf, if_true, raiseIn]
    · refine .inr ⟨(s.push (s.pc + 2)).setPc (zext16 nnn), ?_, rfl, rfl, rfl, rfl⟩
      simp only [exec, execCall, hf, if_false, Bool.false_eq_true]
  case skp x =>
    by_cases hk : (s.getV x).toNat < 16
    · refine .inr ⟨s.skipIf s.keys[(s.getV x).toNat], ?_, by simp [Completes]⟩
      simp only [exec, execSkp, s.keyAt_key hk]
    · refine .inl ⟨.keyIndexOutOfRange (s.getV x), ?_, by omega, x, .inl rfl, rfl⟩
      simp only [exec, execSkp, s.keyAt_none (show 15 < (s.getV x).toNat by omega), raiseIn]
  case sknp x =>
    by_cases hk : (s.getV x).toNat < 16
    · refine .inr ⟨s.skipIf (!s.keys[(s.getV x).toNat]), ?_, by simp [Completes]⟩
      simp only [exec, execSknp, s.keyAt_key hk]
    · refine .inl ⟨.keyIndexOutOfRange (s.getV x), ?_, by omega, x, .inr rfl, rfl⟩
      simp only [exec, execSknp, s.keyAt_none (show 15 < (s.getV x).toNat by omega), raiseIn]
  case drw x y n =>
    rcases boundsFault_cases (i := .drw x y n) (s := s) rfl with ⟨hb, -⟩ | ⟨f, hb, hf⟩
    · exact .inr ⟨((s.setFb (drawPixels s.fb false (s.drawnPixels x y n)).1).setV VF
        (flag (drawPixels s.fb false (s.drawnPixels x y n)).2)).advance,
        by simp only [exec, execDrw, hb], by simp [Completes]⟩
    · exact .inl ⟨f, by simp only [exec, execDrw, hb, raiseIn], hf⟩
  case ldB x =>
    rcases boundsFault_cases (i := .ldB x) (s := s) rfl with ⟨hb, -⟩ | ⟨f, hb, hf⟩
    · exact .inr ⟨(s.storeBytes s.indexBase (bcdDigits (s.getV x))).advance,
        by simp only [exec, execLdB, hb], by simp [Completes]⟩
    · exact .inl ⟨f, by simp only [exec, execLdB, hb, raiseIn], hf⟩
  case ldMemVx x =>
    rcases boundsFault_cases (i := .ldMemVx x) (s := s) rfl with ⟨hb, -⟩ | ⟨f, hb, hf⟩
    · exact .inr ⟨(s.storeBytes s.indexBase (s.regsUpTo x)).advance,
        by simp only [exec, execLdMemVx, hb], by simp [Completes]⟩
    · exact .inl ⟨f, by simp only [exec, execLdMemVx, hb, raiseIn], hf⟩
  case ldVxMem x =>
    rcases boundsFault_cases (i := .ldVxMem x) (s := s) rfl with ⟨hb, -⟩ | ⟨f, hb, hf⟩
    · exact .inr ⟨(s.loadV (s.bytesAt s.indexBase (x.val + 1))).advance,
        by simp only [exec, execLdVxMem, hb], by simp [Completes]⟩
    · exact .inl ⟨f, by simp only [exec, execLdVxMem, hb, raiseIn], hf⟩
  case ldVxK x =>
    rcases hk : s.lowestKey with _ | k
    · exact .inr ⟨s, by simp only [exec, execLdVxK, hk], rfl, rfl, rfl, rfl⟩
    · exact .inr ⟨(s.setV x (BitVec.ofNat 8 k)).advance, by simp only [exec, execLdVxK, hk], by simp [Completes]⟩
  all_goals exact .inr ⟨_, rfl, by simp [Completes]⟩

end Sys2Proof.Machine
end

