-- ==== Sys2Proof/Laws/HostOps.lean ====
section
/-! SUPPORT. What one operation of the host can do, said once, and which sequences the host has
(spec/60_exceptions.md R238). -/

namespace Sys2Proof.Machine

/-- What a move of the host does to the block, and whether a load may follow. -/
theorem Session.move_cases {h g : Session} {op : HostOp} (e : h.move op = some g) :
    (op = .reset ∧ g = ⟨h.block.hostReset, true⟩) ∨
      (∃ image, op = .load image ∧ h.mayLoad = true ∧ g = ⟨(h.block.load image).1, h.mayLoad⟩) ∨
      (op = .step ∧ g = ⟨h.block.stepReport.1, false⟩) ∨
      (op = .tick ∧ g = ⟨h.block.tick, h.mayLoad⟩) ∨
      ∃ k down, op = .setKey k down ∧ g = ⟨h.block.setKey k down, h.mayLoad⟩ := by
  cases op with
  | reset => exact .inl ⟨rfl, (Option.some.inj e).symm⟩
  | load image =>
    cases hm : h.mayLoad with
    | false => simp [Session.move, hm] at e
    | true => exact .inr (.inl ⟨image, rfl, rfl, by simpa [Session.move, hm] using e.symm⟩)
  | step => exact .inr (.inr (.inl ⟨rfl, (Option.some.inj e).symm⟩))
  | tick => exact .inr (.inr (.inr (.inl ⟨rfl, (Option.some.inj e).symm⟩)))
  | setKey k down => exact .inr (.inr (.inr (.inr ⟨k, down, rfl, (Option.some.inj e).symm⟩)))

/-- The host has every move but a load that comes too late. -/
theorem Session.move_eq_none {h : Session} {op : HostOp} :
    h.move op = none ↔ (∃ image, op = .load image) ∧ h.mayLoad = false := by
  cases op <;> simp [Session.move]

@[simp] theorem runOps_nil (h : Session) : runOps h [] = some h := rfl

theorem runOps_cons (h : Session) (op : HostOp) (ops : List HostOp) :
    runOps h (op :: ops) = (h.move op).bind fun g => runOps g ops := rfl

/-- A property of the block that every move keeps is kept by every run. -/
theorem runOps_induction {P : State → Prop}
    (hm : ∀ (h g : Session) (op : HostOp), P h.block → h.move op = some g → P g.block) :
    ∀ (ops : List HostOp) (h g : Session), P h.block → runOps h ops = some g → P g.block
  | [], _, _, hp, e => by cases e; exact hp
  | op :: ops, h, g, hp, e => by
    obtain ⟨k, e₁, e₂⟩ := Option.bind_eq_some_iff.mp e
    exact runOps_induction hm ops k g (hm h k op hp e₁) e₂

/-- The sequences runOps carries out are the lawful ones. -/
theorem runOps_isSome (ops : List HostOp) : ∀ h : Session, (runOps h ops).isSome = lawfulOps h.mayLoad ops := by
  induction ops with
  | nil => exact fun _ => rfl
  | cons op ops ih =>
    intro h
    cases op with
    | load image => cases hm : h.mayLoad <;> simp [runOps_cons, Session.move, lawfulOps, ih, hm]
    | reset => exact ih _
    | step => exact ih _
    | tick => exact ih _
    | setKey k down => exact ih _

end Sys2Proof.Machine
end

