-- ==== Sys2Proof/Laws/PerInstr.lean ====
section
/-! SUPPORT. The family Encoded: every instruction's word matches the row of spec/opcode_table.json that carries its
mnemonic (spec/30_encoding.md R78, R79), one lemma per instruction. -/

namespace Sys2Proof.Laws.Encoded

/-- The encoded word matches the table's row of this instruction. -/
def Statement (i : Instr) : Prop := ∃ r ∈ opcodeTable, r.mnemonic = i.mnemonic ∧ r.covers (encode i) = true

theorem cls : Statement (.cls) :=
  ⟨⟨"CLS", 0xffff#16, 0x00e0#16⟩, by decide, rfl, by decide⟩

theorem ret : Statement (.ret) :=
  ⟨⟨"RET", 0xffff#16, 0x00ee#16⟩, by decide, rfl, by decide⟩

theorem jp (nnn : Addr12) : Statement (.jp nnn) :=
  ⟨⟨"JP", 0xf000#16, 0x1000#16⟩, by decide, rfl, by rw [Row.covers, and_F000]; simp [encode]; rfl⟩

theorem call (nnn : Addr12) : Statement (.call nnn) :=
  ⟨⟨"CALL", 0xf000#16, 0x2000#16⟩, by decide, rfl, by rw [Row.covers, and_F000]; simp [encode]; rfl⟩

theorem seImm (x : Index) (nn : Byte) : Statement (.seImm x nn) :=
  ⟨⟨"SE_VX_NN", 0xf000#16, 0x3000#16⟩, by decide, rfl, by rw [Row.covers, and_F000]; simp [encode]; rfl⟩

theorem sneImm (x : Index) (nn : Byte) : Statement (.sneImm x nn) :=
  ⟨⟨"SNE_VX_NN", 0xf000#16, 0x4000#16⟩, by decide, rfl, by rw [Row.covers, and_F000]; simp [encode]; rfl⟩

theorem seReg (x y : Index) : Statement (.seReg x y) :=
  ⟨⟨"SE_VX_VY", 0xf00f#16, 0x5000#16⟩, by decide, rfl, by rw [Row.covers, and_F00F]; simp [encode]; rfl⟩

theorem ldImm (x : Index) (nn : Byte) : Statement (.ldImm x nn) :=
  ⟨⟨"LD_VX_NN", 0xf000#16, 0x6000#16⟩, by decide, rfl, by rw [Row.covers, and_F000]; simp [encode]; rfl⟩

theorem addImm (x : Index) (nn : Byte) : Statement (.addImm x nn) :=
  ⟨⟨"ADD_VX_NN", 0xf000#16, 0x7000#16⟩, by decide, rfl, by rw [Row.covers, and_F000]; simp [encode]; rfl⟩

theorem ldReg (x y : Index) : Statement (.ldReg x y) :=
  ⟨⟨"LD_VX_VY", 0xf00f#16, 0x8000#16⟩, by decide, rfl, by rw [Row.covers, and_F00F]; simp [encode]; rfl⟩

theorem orReg (x y : Index) : Statement (.orReg x y) :=
  ⟨⟨"OR", 0xf00f#16, 0x8001#16⟩, by decide, rfl, by rw [Row.covers, and_F00F]; simp [encode]; rfl⟩

theorem andReg (x y : Index) : Statement (.andReg x y) :=
  ⟨⟨"AND", 0xf00f#16, 0x8002#16⟩, by decide, rfl, by rw [Row.covers, and_F00F]; simp [encode]; rfl⟩

theorem xorReg (x y : Index) : Statement (.xorReg x y) :=
  ⟨⟨"XOR", 0xf00f#16, 0x8003#16⟩, by decide, rfl, by rw [Row.covers, and_F00F]; simp [encode]; rfl⟩

theorem addReg (x y : Index) : Statement (.addReg x y) :=
  ⟨⟨"ADD_VX_VY", 0xf00f#16, 0x8004#16⟩, by decide, rfl, by rw [Row.covers, and_F00F]; simp [encode]; rfl⟩

theorem sub (x y : Index) : Statement (.sub x y) :=
  ⟨⟨"SUB", 0xf00f#16, 0x8005#16⟩, by decide, rfl, by rw [Row.covers, and_F00F]; simp [encode]; rfl⟩

theorem shr (x : Index) : Statement (.shr x) :=
  ⟨⟨"SHR", 0xf00f#16, 0x8006#16⟩, by decide, rfl, by rw [Row.covers, and_F00F]; simp [encode]; rfl⟩

theorem subn (x y : Index) : Statement (.subn x y) :=
  ⟨⟨"SUBN", 0xf00f#16, 0x8007#16⟩, by decide, rfl, by rw [Row.covers, and_F00F]; simp [encode]; rfl⟩

theorem shl (x : Index) : Statement (.shl x) :=
  ⟨⟨"SHL", 0xf00f#16, 0x800e#16⟩, by decide, rfl, by rw [Row.covers, and_F00F]; simp [encode]; rfl⟩

theorem sneReg (x y : Index) : Statement (.sneReg x y) :=
  ⟨⟨"SNE_VX_VY", 0xf00f#16, 0x9000#16⟩, by decide, rfl, by rw [Row.covers, and_F00F]; simp [encode]; rfl⟩

theorem ldI (nnn : Addr12) : Statement (.ldI nnn) :=
  ⟨⟨"LD_I_NNN", 0xf000#16, 0xa000#16⟩, by decide, rfl, by rw [Row.covers, and_F000]; simp [encode]; rfl⟩

theorem jpV0 (nnn : Addr12) : Statement (.jpV0 nnn) :=
  ⟨⟨"JP_V0_NNN", 0xf000#16, 0xb000#16⟩, by decide, rfl, by rw [Row.covers, and_F000]; simp [encode]; rfl⟩

theorem rnd (x : Index) (nn : Byte) : Statement (.rnd x nn) :=
  ⟨⟨"RND", 0xf000#16, 0xc000#16⟩, by decide, rfl, by rw [Row.covers, and_F000]; simp [encode]; rfl⟩

theorem drw (x y n : Index) : Statement (.drw x y n) :=
  ⟨⟨"DRW", 0xf000#16, 0xd000#16⟩, by decide, rfl, by rw [Row.covers, and_F000]; simp [encode]; rfl⟩

theorem skp (x : Index) : Statement (.skp x) :=
  ⟨⟨"SKP", 0xf0ff#16, 0xe09e#16⟩, by decide, rfl, by rw [Row.covers, and_F0FF]; simp [encode]; rfl⟩

theorem sknp (x : Index) : Statement (.sknp x) :=
  ⟨⟨"SKNP", 0xf0ff#16, 0xe0a1#16⟩, by decide, rfl, by rw [Row.covers, and_F0FF]; simp [encode]; rfl⟩

theorem ldVxDt (x : Index) : Statement (.ldVxDt x) :=
  ⟨⟨"LD_VX_DT", 0xf0ff#16, 0xf007#16⟩, by decide, rfl, by rw [Row.covers, and_F0FF]; simp [encode]; rfl⟩

theorem ldVxK (x : Index) : Statement (.ldVxK x) :=
  ⟨⟨"LD_VX_K", 0xf0ff#16, 0xf00a#16⟩, by decide, rfl, by rw [Row.covers, and_F0FF]; simp [encode]; rfl⟩

theorem ldDtVx (x : Index) : Statement (.ldDtVx x) :=
  ⟨⟨"LD_DT_VX", 0xf0ff#16, 0xf015#16⟩, by decide, rfl, by rw [Row.covers, and_F0FF]; simp [encode]; rfl⟩

theorem ldStVx (x : Index) : Statement (.ldStVx x) :=
  ⟨⟨"LD_ST_VX", 0xf0ff#16, 0xf018#16⟩, by decide, rfl, by rw [Row.covers, and_F0FF]; simp [encode]; rfl⟩

theorem addI (x : Index) : Statement (.addI x) :=
  ⟨⟨"ADD_I_VX", 0xf0ff#16, 0xf01e#16⟩, by decide, rfl, by rw [Row.covers, and_F0FF]; simp [encode]; rfl⟩

theorem ldF (x : Index) : Statement (.ldF x) :=
  ⟨⟨"LD_F_VX", 0xf0ff#16, 0xf029#16⟩, by decide, rfl, by rw [Row.covers, and_F0FF]; simp [encode]; rfl⟩

theorem ldB (x : Index) : Statement (.ldB x) :=
  ⟨⟨"LD_B_VX", 0xf0ff#16, 0xf033#16⟩, by decide, rfl, by rw [Row.covers, and_F0FF]; simp [encode]; rfl⟩

theorem ldMemVx (x : Index) : Statement (.ldMemVx x) :=
  ⟨⟨"LD_MEM_I_VX", 0xf0ff#16, 0xf055#16⟩, by decide, rfl, by rw [Row.covers, and_F0FF]; simp [encode]; rfl⟩

theorem ldVxMem (x : Index) : Statement (.ldVxMem x) :=
  ⟨⟨"LD_VX_MEM_I", 0xf0ff#16, 0xf065#16⟩, by decide, rfl, by rw [Row.covers, and_F0FF]; simp [encode]; rfl⟩

end Sys2Proof.Laws.Encoded
end

