-- ==== Sys2Proof/Tests/Slice0.lean ====
section
/-! SUPPORT. The model's own tests. Expected results are the vectors of spec/95_test_vectors.md (their ids stand in the
comments) or the examples of the instruction rules; then one witness per statement that has hypotheses. -/

namespace Sys2Proof.Tests

open Sys2Proof.Machine

set_option maxRecDepth 4000

/-- The state after reset with an empty frame buffer, the start state of spec/95_test_vectors.md. -/
def blank : State := .resetWith defaultParams blankFrame (Vector.replicate 16 false) 1

/-- A parameter setting other than the default in one parameter. -/
def withOrder (o : VfOrder) (s : State) : State := { s with params := { s.params with vfOrder := o } }

/-- The state of an outcome, if it is a next state. -/
def nextState : Host.Outcome State Fault Refusal → Option State
  | .next t => some t
  | .fault _ => none
  | .refused _ => none

/-- What a view sees after one step that runs the word w. -/
def seen {α : Type} (s : State) (w : Nat) (view : State → α) : Option α :=
  (nextState (step (s.withFetchWord 16 w))).map view

/-- The pressed keys of a list. -/
def pressing (ks : List Index) (s : State) : State := ks.foldl (fun t k => t.setKey k true) s

/-! ## Well-formedness: an ill-formed term for each check -/

/-- D1, D2: no row has prefix 0 but 00E0 and 00EE. -/
theorem test_wf_prefix0 : wordWellFormed 0x0000 = false ∧ wordWellFormed 0x0123 = false := by decide

/-- D3, D4: every literal nibble of 00E0 counts. -/
theorem test_wf_cls_literals : wordWellFormed 0x00E1 = false ∧ wordWellFormed 0x01E0 = false := by decide

/-- D6, D7: the low nibble of 5xy0 and 9xy0. -/
theorem test_wf_low_nibble : wordWellFormed 0x5121 = false ∧ wordWellFormed 0x9AB3 = false := by decide

/-- D8, D9: the undefined suffixes of prefix 8. -/
theorem test_wf_prefix8 : wordWellFormed 0x8AB8 = false ∧ wordWellFormed 0x800F = false := by decide

/-- D10 to D14: the undefined low bytes of prefixes E and F. -/
theorem test_wf_low_byte : wordWellFormed 0xE19F = false ∧ wordWellFormed 0xF1FF = false := by decide

/-- A defined word is well formed. -/
theorem test_wf_defined : wordWellFormed 0xF265 = true := by decide

/-- L1.8: an image of 3585 bytes is ill formed, one of 3584 is well formed. -/
theorem test_wf_image :
    imageWellFormed (List.replicate 3585 0) = false ∧ imageWellFormed (List.replicate 3584 0) = true := by
  unfold imageWellFormed; rw [List.length_replicate, List.length_replicate]; decide

/-! ## Decoding: words written out from the encodings of spec/30_encoding.md R79 -/

/-- Format F0: 0000 0000 1110 0000 and 0000 0000 1110 1110. -/
theorem test_decode_F0 :
    decode 0b0000000011100000 = some .cls ∧ decode 0b0000000011101110 = some .ret := by decide

/-- Format FA: pppp nnnn nnnn nnnn. -/
theorem test_decode_FA :
    decode 0b0001101010111100 = some (.jp 0xABC) ∧ decode 0b0010010000000000 = some (.call 0x400) ∧
      decode 0b1010000100100011 = some (.ldI 0x123) ∧ decode 0b1011001100000000 = some (.jpV0 0x300) := by decide

/-- Format FB: pppp xxxx nnnn nnnn. -/
theorem test_decode_FB :
    decode 0b0011101001000010 = some (.seImm 0xA 0x42) ∧ decode 0b0100101001000010 = some (.sneImm 0xA 0x42) ∧
      decode 0b0110101001000010 = some (.ldImm 0xA 0x42) ∧ decode 0b0111101011111111 = some (.addImm 0xA 0xFF) ∧
      decode 0b1100001100001111 = some (.rnd 3 0x0F) := by decide

/-- Format FR: pppp xxxx yyyy ssss, the skips and the copies. -/
theorem test_decode_FR_moves :
    decode 0b0101000100100000 = some (.seReg 1 2) ∧ decode 0b1001000100100000 = some (.sneReg 1 2) ∧
      decode 0b1000000100100000 = some (.ldReg 1 2) ∧ decode 0b1000000100100001 = some (.orReg 1 2) ∧
      decode 0b1000000100100010 = some (.andReg 1 2) ∧ decode 0b1000000100100011 = some (.xorReg 1 2) := by decide

/-- Format FR: the flag writers; the y of the shifts is ignored (A13). -/
theorem test_decode_FR_flags :
    decode 0b1000000100100100 = some (.addReg 1 2) ∧ decode 0b1000000100100101 = some (.sub 1 2) ∧
      decode 0b1000000110100110 = some (.shr 1) ∧ decode 0b1000000100100111 = some (.subn 1 2) ∧
      decode 0b1000000100001110 = some (.shl 1) := by decide

/-- Format FD: 1101 xxxx yyyy nnnn. -/
theorem test_decode_FD : decode 0b1101000100100101 = some (.drw 1 2 5) := by decide

/-- Format FX: the keys and the timers. -/
theorem test_decode_FX_keys :
    decode 0b1110001010011110 = some (.skp 2) ∧ decode 0b1110001010100001 = some (.sknp 2) ∧
      decode 0b1111010100000111 = some (.ldVxDt 5) ∧ decode 0b1111001100001010 = some (.ldVxK 3) ∧
      decode 0b1111000000010101 = some (.ldDtVx 0) ∧ decode 0b1111000100011000 = some (.ldStVx 1) := by decide

/-- Format FX: the index register and the transfers. -/
theorem test_decode_FX_index :
    decode 0b1111000100011110 = some (.addI 1) ∧ decode 0b1111010000101001 = some (.ldF 4) ∧
      decode 0b1111000000110011 = some (.ldB 0) ∧ decode 0b1111001001010101 = some (.ldMemVx 2) ∧
      decode 0b1111001001100101 = some (.ldVxMem 2) := by decide

/-- The decoder on bytes in memory order: high byte first (R71), and the rejections by name. -/
theorem test_decode_bytes :
    decodeBytes [0x12, 0x34, 0x56] = .instr (.jp 0x234) [0x56] ∧ decodeBytes [0x51, 0x21] = .unknown 0x5121 ∧
      decodeBytes [0x12] = .truncated := by decide

/-- The opcode table numbers bit 0 as the least significant bit of the word. -/
theorem test_decode_table_word : decodeTableWord 16 0x8124 = some (.addReg 1 2) := by decide

/-! ## Fetch, step, faults -/

/-- D15: the last address a fetch succeeds at. -/
theorem test_fetch_last : seen (blank.setPc 0xFFE) 0x1200 State.pc = some 0x200 := by decide

/-- D16: a fetch at FFF. -/
theorem test_fetch_FFF :
    (nextState (step (blank.setPc 0xFFF))).map State.fault =
      some (some { kind := .memoryOutOfBounds 0x1000, pc := 0xFFF, word := none }) := by decide

/-- D17: a fetch at 1000. -/
theorem test_fetch_1000 :
    (nextState (step (blank.setPc 0x1000))).map State.fault =
      some (some { kind := .memoryOutOfBounds 0x1000, pc := 0x1000, word := none }) := by decide

/-- D18: an odd pc is fetched like any other. -/
theorem test_fetch_odd : seen (blank.setPc 0x201) 0x6A42 (fun t => (t.getV 0xA, t.pc)) = some (0x42, 0x203) := by
  decide

/-- The block after a sequence of operations that starts before the first step. -/
def after (s : State) (ops : List HostOp) : Option State := (runOps ⟨s, true⟩ ops).map Session.block

/-- F1: UnknownOpcode halts; a later step changes nothing; ticks go on. -/
theorem test_halt_then_tick :
    (after (blank.setDt 3) [.step, .tick, .step]).map (fun t => (t.fault, t.dt)) =
      some (some { kind := .unknownOpcode, pc := 0x200, word := some 0x0000 }, 2) := by decide

/-- F2: only a reset clears a halt. -/
theorem test_reset_clears_halt :
    (after blank [.step, .reset]).map (fun t => (t.halted, t.fault)) = some (false, none) := by decide

/-! ## The program-counter sequencer -/

/-- P4: the return address is not advanced again. -/
theorem test_ret :
    seen ((blank.setPc 0x400).push 0x202) 0x00EE (fun t => (t.pc, t.stack)) = some (0x202, []) := by decide

/-- P5: an empty stack. -/
theorem test_ret_underflow :
    seen blank 0x00EE State.fault =
      some (some { kind := .stackUnderflow, pc := 0x200, word := some 0x00EE }) := by decide

/-- P1. -/
theorem test_jp : seen blank 0x1ABC State.pc = some 0xABC := by decide

/-- P3: pc + 2 is pushed. -/
theorem test_call : seen blank 0x2400 (fun t => (t.pc, t.stack)) = some (0x400, [0x202]) := by decide

/-- P6, P7: 16 entries are full at the default depth, and never when unbounded. -/
theorem test_call_full :
    seen { blank with stack := List.replicate 16 0x204 } 0x2400 (fun t => (t.pc, t.halted)) = some (0x200, true) ∧
      seen { blank with stack := List.replicate 16 0x204, params := { defaultParams with stackDepth := none } }
        0x2400 (fun t => (t.pc, t.stack.length)) = some (0x400, 17) := by decide

/-- P9, P10. -/
theorem test_seImm :
    seen (blank.setV 0xA 0x42) 0x3A42 State.pc = some 0x204 ∧
      seen (blank.setV 0xA 0x41) 0x3A42 State.pc = some 0x202 := by decide

/-- P11, P12. -/
theorem test_sneImm :
    seen (blank.setV 0xA 0x42) 0x4A42 State.pc = some 0x202 ∧
      seen (blank.setV 0xA 0x41) 0x4A42 State.pc = some 0x204 := by decide

/-- P13, P14. -/
theorem test_seReg :
    seen ((blank.setV 1 7).setV 2 7) 0x5120 State.pc = some 0x204 ∧
      seen ((blank.setV 1 7).setV 2 8) 0x5120 State.pc = some 0x202 := by decide

/-- P16, P17. -/
theorem test_sneReg :
    seen ((blank.setV 1 7).setV 2 7) 0x9120 State.pc = some 0x202 ∧
      seen ((blank.setV 1 7).setV 2 8) 0x9120 State.pc = some 0x204 := by decide

/-- P19, P20: V0 is the offset, and the sum is not masked. -/
theorem test_jpV0 :
    seen (blank.setV 0 0xFF) 0xB300 State.pc = some 0x3FF ∧
      seen (blank.setV 0 0xFF) 0xBFFF State.pc = some 0x10FE := by decide

/-! ## The register ALU -/

/-- A1. -/
theorem test_ldImm : seen blank 0x6A42 (fun t => t.getV 0xA) = some 0x42 := by decide

/-- A2: a wrap sets no flag. -/
theorem test_addImm :
    seen ((blank.setV 0xA 0x02).setV VF 0x77) 0x7AFF (fun t => (t.getV 0xA, t.getV VF)) = some (0x01, 0x77) := by
  decide

/-- A4. -/
theorem test_ldReg : seen ((blank.setV 1 0x01).setV 2 0x99) 0x8120 (fun t => t.getV 1) = some 0x99 := by decide

/-- A5: VF is not reset. -/
theorem test_orReg :
    seen (((blank.setV 1 0xF0).setV 2 0x0F).setV VF 0x55) 0x8121 (fun t => (t.getV 1, t.getV VF)) =
      some (0xFF, 0x55) := by decide

/-- A6. -/
theorem test_andReg : seen ((blank.setV 1 0xF0).setV 2 0x3C) 0x8122 (fun t => t.getV 1) = some 0x30 := by decide

/-- A7. -/
theorem test_xorReg : seen ((blank.setV 1 0xFF).setV 2 0x0F) 0x8123 (fun t => t.getV 1) = some 0xF0 := by decide

/-- L1.1: 250 + 10. -/
theorem test_addReg :
    seen ((blank.setV 1 250).setV 2 10) 0x8124 (fun t => (t.getV 1, t.getV VF)) = some (4, 1) := by decide

/-- A24: x = F under the three orders. -/
theorem test_addReg_vf :
    seen (withOrder .asListed ((blank.setV 1 1).setV VF 0xFF)) 0x8F14 (fun t => t.getV VF) = some 0x00 ∧
      seen (withOrder .flagLast ((blank.setV 1 1).setV VF 0xFF)) 0x8F14 (fun t => t.getV VF) = some 0x01 ∧
      seen (withOrder .sequential ((blank.setV 1 1).setV VF 0xFF)) 0x8F14 (fun t => t.getV VF) = some 0x00 := by
  decide

/-- L1.2: 5 - 10 borrows. -/
theorem test_sub :
    seen ((blank.setV 1 5).setV 2 10) 0x8125 (fun t => (t.getV 1, t.getV VF)) = some (251, 0) := by decide

/-- A26: x = F under the three orders. -/
theorem test_sub_vf :
    seen (withOrder .asListed ((blank.setV 1 3).setV VF 5)) 0x8F15 (fun t => t.getV VF) = some 0x02 ∧
      seen (withOrder .flagLast ((blank.setV 1 3).setV VF 5)) 0x8F15 (fun t => t.getV VF) = some 0x01 ∧
      seen (withOrder .sequential ((blank.setV 1 3).setV VF 5)) 0x8F15 (fun t => t.getV VF) = some 0xFE := by decide

/-- A13: y is ignored. -/
theorem test_shr :
    seen ((blank.setV 1 0x05).setV 0xA 0xEE) 0x81A6 (fun t => (t.getV 1, t.getV VF, t.getV 0xA)) =
      some (0x02, 0x01, 0xEE) := by decide

/-- A28: x = F under the three orders. -/
theorem test_shr_vf :
    seen (withOrder .asListed (blank.setV VF 6)) 0x8F06 (fun t => t.getV VF) = some 0x03 ∧
      seen (withOrder .flagLast (blank.setV VF 6)) 0x8F06 (fun t => t.getV VF) = some 0x00 ∧
      seen (withOrder .sequential (blank.setV VF 6)) 0x8F06 (fun t => t.getV VF) = some 0x00 := by decide

/-- A15: the operands the other way round. -/
theorem test_subn :
    seen ((blank.setV 1 0x0A).setV 2 0x05) 0x8127 (fun t => (t.getV 1, t.getV VF)) = some (0xFB, 0x00) := by decide

/-- A29: y = F under the three orders. -/
theorem test_subn_vf :
    seen (withOrder .asListed ((blank.setV 1 3).setV VF 5)) 0x81F7 (fun t => t.getV 1) = some 0x02 ∧
      seen (withOrder .flagLast ((blank.setV 1 3).setV VF 5)) 0x81F7 (fun t => t.getV 1) = some 0x02 ∧
      seen (withOrder .sequential ((blank.setV 1 3).setV VF 5)) 0x81F7 (fun t => t.getV 1) = some 0xFE := by decide

/-- A18. -/
theorem test_shl : seen (blank.setV 1 0x81) 0x810E (fun t => (t.getV 1, t.getV VF)) = some (0x02, 0x01) := by decide

/-- A31: x = F under the three orders. -/
theorem test_shl_vf :
    seen (withOrder .asListed (blank.setV VF 0x81)) 0x8F0E (fun t => t.getV VF) = some 0x02 ∧
      seen (withOrder .flagLast (blank.setV VF 0x81)) 0x8F0E (fun t => t.getV VF) = some 0x01 ∧
      seen (withOrder .sequential (blank.setV VF 0x81)) 0x8F0E (fun t => t.getV VF) = some 0x02 := by decide

/-- A21, A23: the byte is free; what is fixed is the mask. -/
theorem test_rnd : seen blank 0xC30F (fun t => t.getV 3) = some (Config.randByte 1 &&& 0x0F) := rfl

/-! ## The index register and memory -/

/-- M1. -/
theorem test_ldI : seen blank 0xA123 State.i = some 0x123 := by decide

/-- M2, M3: I passes FFF without a flag, and wraps at 16 bits. -/
theorem test_addI :
    seen (((blank.setI 0xFFF).setV 1 1).setV VF 0x77) 0xF11E (fun t => (t.i, t.getV VF)) = some (0x1000, 0x77) ∧
      seen ((blank.setI 0xFFFF).setV 1 2) 0xF11E State.i = some 0x0001 := by decide

/-- M7, M8: P_FX29_WIDE. -/
theorem test_ldF :
    seen (blank.setV 1 0x1A) 0xF129 State.i = some 0x082 ∧
      seen { blank.setV 1 0xFF with params := { defaultParams with fx29Wide := .unmasked } } 0xF129 State.i =
        some 0x54B := by decide

/-- M13: the last I that fits. -/
theorem test_ldB :
    seen ((blank.setI 0xFFD).setV 1 0xFF) 0xF133 (fun t => t.bytesAt 0xFFD 3) = some [0x02, 0x05, 0x05] := by decide

/-- M14: one byte over, and nothing is written. -/
theorem test_ldB_bounds :
    seen ((blank.setI 0xFFE).setV 1 0xFF) 0xF133 (fun t => (t.fault.map FaultRecord.kind, t.byteAt 0xFFE)) =
      some (some (.memoryOutOfBounds 0x1000), 0x00) := by decide

/-- M16: x = 0 stores V0 alone, and I stays. -/
theorem test_ldMemVx :
    seen (((blank.setI 0x300).setV 0 0xAA).setV 1 0xBB) 0xF055 (fun t => (t.bytesAt 0x300 2, t.i)) =
      some ([0xAA, 0x00], 0x300) := by decide

/-- M21: I is not masked. -/
theorem test_ldMemVx_bounds :
    seen (blank.setI 0x1005) 0xF055 (fun t => t.fault.map FaultRecord.kind) =
      some (some (.memoryOutOfBounds 0x1005)) := by decide

/-- M22: the registers above x stay. -/
theorem test_ldVxMem :
    seen (((blank.storeBytes 0x300 [1, 2, 3, 4]).setI 0x300).setV 3 0x33) 0xF265
      (fun t => [t.getV 0, t.getV 1, t.getV 2, t.getV 3]) = some [1, 2, 3, 0x33] := by decide

/-! ## The draw engine -/

/-- G9. -/
theorem test_cls :
    seen (blank.setFb (frameFlip (frameFlip blankFrame (1, 1)) (63, 31))) 0x00E0
      (fun t => (framePixel t.fb (1, 1), framePixel t.fb (63, 31))) = some (false, false) := by decide

/-- G3: a wrap on both axes at the corner: FF on row 31, 81 on row 0. -/
theorem test_drw :
    seen ((((blank.storeBytes 0x300 [0xFF, 0x81]).setI 0x300).setV 1 0x3E).setV 2 0x1F) 0xD122
      (fun t => (t.fb[31], t.fb[0], t.getV VF)) =
        some (0xC00000000000003F#64, 0x4000000000000020#64, 0x00) := by decide

/-- G5: a set pixel is turned off. -/
theorem test_drw_collision :
    seen ((((blank.storeBytes 0x300 [0x80]).setI 0x300).setV 1 0x0A).setV 2 0x05
      |>.setFb (frameFlip blankFrame (10, 5))) 0xD121
      (fun t => (framePixel t.fb (10, 5), t.getV VF)) = some (false, 0x01) := by decide

/-! ## Keys and timers -/

/-- K1, K2. -/
theorem test_skp :
    seen (pressing [3] (blank.setV 2 3)) 0xE29E State.pc = some 0x204 ∧
      seen (blank.setV 2 3) 0xE29E State.pc = some 0x202 := by decide

/-- K5. -/
theorem test_skp_range :
    seen (blank.setV 2 0x10) 0xE29E (fun t => t.fault.map FaultRecord.kind) =
      some (some (.keyIndexOutOfRange 0x10)) := by decide

/-- K3, K4. -/
theorem test_sknp :
    seen (blank.setV 2 3) 0xE2A1 State.pc = some 0x204 ∧
      seen (pressing [3] (blank.setV 2 3)) 0xE2A1 State.pc = some 0x202 := by decide

/-- K7: waiting. -/
theorem test_ldVxK_waits : seen blank 0xF30A (fun t => (t.pc, t.getV 3)) = some (0x200, 0x00) := by decide

/-- K8: the lowest index wins. -/
theorem test_ldVxK : seen (pressing [9, 5] blank) 0xF30A (fun t => (t.getV 3, t.pc)) = some (0x05, 0x202) := by
  decide

/-- K10. -/
theorem test_ldVxDt : seen (blank.setDt 0x3C) 0xF507 (fun t => t.getV 5) = some 0x3C := by decide

/-- K11, the write. -/
theorem test_ldDtVx : seen (blank.setV 0 5) 0xF015 State.dt = some 5 := by decide

/-- K12, the write. -/
theorem test_ldStVx : seen (blank.setV 1 2) 0xF118 (fun t => (t.st, t.sound)) = some (2, true) := by decide

/-- K13, K14: both timers in one tick, floored at 0. -/
theorem test_tick :
    (((blank.setDt 2).setSt 1).tick.dt, ((blank.setDt 2).setSt 1).tick.st, blank.tick.dt) = (1, 0, 0) := by decide

/-- Rules R250, R253 to R255: a program loaded after a reset runs from 0x200. -/
theorem test_reset_load_step :
    (runOps .start [.load [0x1A, 0xBC], .step]).map (fun h => h.block.pc) = some 0xABC := by decide

/-- F4 and rule R253: bytes land at 0x200, and a load of nothing succeeds. -/
theorem test_load :
    (blank.load [0x12, 0x00]).1.bytesAt 0x200 3 = [0x12, 0x00, 0x00] ∧ blank.load [] = (blank, .ok) := by decide

/-- Rule R255: a load only after a reset and before the first step; the host has no other load (R238). -/
theorem test_load_after_step_is_no_move :
    (after blank [.load [0x12], .tick, .load [0x13], .step, .tick]).isSome = true ∧
      after blank [.step, .load []] = none ∧ (after blank [.step, .reset, .load []]).isSome = true ∧
      runOps ⟨blank, false⟩ [.load []] = none := by decide

/-! ## Witnesses: a state and operands that meet the hypotheses of each statement -/

theorem witness_EncodeOfDecode :
    decode 0x81A6 = some (.shr 1) ∧ decode 0x81AE = some (.shl 1) ∧ decode 0x6A42 = some (.ldImm 0xA 0x42) := by
  decide

theorem witness_DecodeFollowsTable : (⟨"CLS", 0xFFFF, 0x00E0⟩ : Row) ∈ opcodeTable := by decide

theorem witness_ShiftsIgnoreTheirYField :
    decode 0x8106 = some (.shr 1) ∧ decode 0x81F6 = some (.shr 1) ∧ (0x8106 : Word) ≠ 0x81F6 := by decide

/-- A word placed at the last address a fetch succeeds at. -/
theorem witness_StepRunsDecodedInstruction :
    ((blank.setPc 0xFFE).withFetchWord 16 0x6A42).halted = false ∧
      ((blank.setPc 0xFFE).withFetchWord 16 0x6A42).Fetches (.ldImm 0xA 0x42) :=
  ⟨by decide, by decide, by decide⟩

theorem witness_UnknownWordHalts :
    blank.halted = false ∧ blank.pc.toNat + 1 < 4096 ∧
      wordWellFormed (blank.byteAt blank.pc.toNat ++ blank.byteAt (blank.pc.toNat + 1)) = false := by decide

theorem witness_FetchOutOfBoundsHalts :
    (blank.setPc 0x1000).halted = false ∧ 4096 ≤ (blank.setPc 0x1000).pc.toNat ∧
      (blank.setPc 0xFFF).halted = false ∧ (blank.setPc 0xFFF).pc = 0xFFF := by decide

theorem witness_HaltedStepReportsAgain : (blank.raise .unknownOpcode none).halted = true := by decide

/-- UnknownOpcode: also the witness of FaultRecordNamesTheInstruction and OnlyTheListedCausesHalt. -/
theorem witness_FaultingStepChangesNothingElse :
    blank.halted = false ∧ step blank = .next (blank.raise .unknownOpcode (some 0x0000)) ∧
      (blank.raise .unknownOpcode (some 0x0000)).halted = true :=
  ⟨rfl, rfl, rfl⟩

/-- A state at an 00EE with an empty stack. -/
def atRet : State := blank.withFetchWord 16 0x00EE

/-- A state at a 2400 with a full stack. -/
def atCall : State := { blank with stack := List.replicate 16 0x204 }.withFetchWord 16 0x2400

/-- A state at an F133 with I one too high. -/
def atLdB : State := (blank.setI 0xFFE).withFetchWord 16 0xF133

/-- A state at an E29E with V2 one too high. -/
def atSkp : State := (blank.setV 2 0x10).withFetchWord 16 0xE29E

theorem witness_FaultRecordNamesTheInstruction :
    (blank.setPc 0xFFF).halted = false ∧
      step (blank.setPc 0xFFF) = .next ((blank.setPc 0xFFF).raise (.memoryOutOfBounds 4096) none) :=
  ⟨rfl, rfl⟩

theorem witness_OnlyTheListedCausesHalt_ret :
    atRet.halted = false ∧ step atRet = .next (atRet.raise .stackUnderflow (some 0x00EE)) := ⟨rfl, rfl⟩

theorem witness_OnlyTheListedCausesHalt_call :
    atCall.halted = false ∧ step atCall = .next (atCall.raise .stackOverflow (some 0x2400)) := ⟨rfl, rfl⟩

theorem witness_OnlyTheListedCausesHalt_memory :
    atLdB.halted = false ∧ step atLdB = .next (atLdB.raise (.memoryOutOfBounds 4096) (some 0xF133)) := ⟨rfl, rfl⟩

theorem witness_OnlyTheListedCausesHalt_key :
    atSkp.halted = false ∧ step atSkp = .next (atSkp.raise (.keyIndexOutOfRange 0x10) (some 0xE29E)) := ⟨rfl, rfl⟩

/-- The blank state meets the invariant. -/
theorem blank_inv : blank.Inv :=
  ⟨rfl, by decide, fun _ _ => Nat.zero_le _, fun _ h => absurd h (List.not_mem_nil), rfl, fun _ h => nomatch h⟩

theorem witness_StepKeepsInvariant :
    blank.Inv ∧ step blank = .next (blank.raise .unknownOpcode (some 0x0000)) := ⟨blank_inv, rfl⟩

theorem witness_RunsKeepInvariant :
    (Session.mk blank true).block.Inv ∧
      runOps ⟨blank, true⟩ [.load [0x6A], .tick] = some ⟨(blank.load [0x6A]).1.tick, true⟩ := ⟨blank_inv, rfl⟩

theorem witness_StepNeverChangesInputs :
    step (blank.withFetchWord 16 0x6A42) = .next ((blank.withFetchWord 16 0x6A42).setV 0xA 0x42).advance := rfl

theorem witness_OnlyListedInstructionsWriteSpecialRegisters :
    (exec (.ldI 0x123) blank = .next (blank.setI 0x123).advance ∧ (blank.setI 0x123).advance.i ≠ blank.i) ∧
      (exec (.ldDtVx 0) (blank.setV 0 5) = .next ((blank.setV 0 5).setDt 5).advance ∧
        ((blank.setV 0 5).setDt 5).advance.dt ≠ (blank.setV 0 5).dt) ∧
      (exec (.ldStVx 0) (blank.setV 0 5) = .next ((blank.setV 0 5).setSt 5).advance ∧
        ((blank.setV 0 5).setSt 5).advance.st ≠ (blank.setV 0 5).st) ∧
      (exec (.call 0x400) blank = .next ((blank.push 0x202).setPc 0x400) ∧
        ((blank.push 0x202).setPc 0x400).stack ≠ blank.stack) :=
  ⟨⟨rfl, by decide⟩, ⟨rfl, by decide⟩, ⟨rfl, by decide⟩, ⟨rfl, by decide⟩⟩

theorem witness_OnlyListedInstructionsWriteMemoryAndFrame :
    (exec (.ldMemVx 0) ((blank.setI 0x300).setV 0 5) =
        .next (((blank.setI 0x300).setV 0 5).storeBytes 0x300 [5]).advance ∧
      (((blank.setI 0x300).setV 0 5).storeBytes 0x300 [5]).advance.byteAt 0x300 ≠
        ((blank.setI 0x300).setV 0 5).byteAt 0x300) ∧
      (exec .cls (blank.setFb (frameFlip blankFrame (1, 1))) =
        .next ((blank.setFb (frameFlip blankFrame (1, 1))).setFb blankFrame).advance ∧
      framePixel (frameFlip blankFrame (1, 1)) (1, 1) ≠ framePixel blankFrame (1, 1)) :=
  ⟨⟨rfl, by decide⟩, ⟨rfl, by decide⟩⟩

theorem witness_OnlyListedInstructionsWriteV :
    exec (.ldImm 3 7) blank = .next (blank.setV 3 7).advance ∧
      (blank.setV 3 7).advance.getV 3 ≠ blank.getV 3 :=
  ⟨rfl, by decide⟩

/-- One state for each clause: the jumps at the largest target, a return, a skip taken, a wait, and the default. -/
theorem witness_PcAdvancesAsListed :
    (exec (.jp 0xFFF) blank = .next (blank.setPc 0xFFF) ∧ (blank.setPc 0xFFF).halted = false) ∧
      exec (.call 0xFFF) blank = .next ((blank.push 0x202).setPc 0xFFF) ∧
      exec (.jpV0 0xFFF) (blank.setV 0 0xFF) = .next ((blank.setV 0 0xFF).setPc 0x10FE) ∧
      exec .ret (blank.push 0x1000) = .next ((blank.push 0x1000).dropTop.setPc 0x1000) ∧
      exec (.seImm 0 0) blank = .next (blank.setPc 0x204) ∧ exec (.ldVxK 0) blank = .next blank ∧
      exec (.ldImm 0 1) blank = .next ((blank.setV 0 1).setPc 0x202) :=
  ⟨⟨rfl, rfl⟩, rfl, rfl, rfl, rfl, rfl, rfl⟩

theorem witness_RetReturnsOrUnderflows : (blank.push 0x202).stack = [] ++ [0x202] ∧ blank.stack = [] := ⟨rfl, rfl⟩

/-- Also the hypothesis of CallThenReturnComesBack. -/
theorem witness_CallPushesOrOverflows :
    blank.params.stackDepth ≠ some blank.stack.length ∧
      atCall.params.stackDepth = some atCall.stack.length := by decide

theorem witness_SkipsCompareRegisters : (1 : Index) ≠ 0 := by decide

/-- Two states of the flag statements: V1 and V2 as operands, then VF as the destination. -/
def flagState : State := (blank.setV 1 250).setV 2 10

theorem witness_AddSetsCarry :
    (1 : Nat) = (if (flagState.getV 1).toNat + (flagState.getV 2).toNat > 255 then 1 else 0) ∧
      (4 : Nat) = ((flagState.getV 1).toNat + (flagState.getV 2).toNat) % 256 ∧ (1 : Index) ≠ VF := by decide

theorem witness_SubSetsNoBorrow :
    (1 : Nat) = (if (flagState.getV 1).toNat ≥ (flagState.getV 2).toNat then 1 else 0) ∧
      (240 : Nat) = (256 + (flagState.getV 1).toNat - (flagState.getV 2).toNat) % 256 ∧
      flagState.params.vfOrder ≠ .sequential := by decide

theorem witness_SubnSetsNoBorrow :
    (0 : Nat) = (if (flagState.getV 2).toNat ≥ (flagState.getV 1).toNat then 1 else 0) ∧
      (16 : Nat) = (256 + (flagState.getV 2).toNat - (flagState.getV 1).toNat) % 256 ∧
      flagState.params.vfOrder ≠ .sequential := by decide

theorem witness_ShrPutsOutTheLowBit :
    (0 : Nat) = (flagState.getV 1).toNat % 2 ∧ (125 : Nat) = (flagState.getV 1).toNat / 2 ∧
      flagState.params.vfOrder ≠ .sequential := by decide

theorem witness_ShlPutsOutTheHighBit :
    (1 : Nat) = (flagState.getV 1).toNat / 128 ∧ (244 : Nat) = 2 * (flagState.getV 1).toNat % 256 ∧
      flagState.params.vfOrder ≠ .sequential := by decide

theorem witness_OrdersAgreeAwayFromVF :
    (0xE : Index) ≠ VF ∧ (0 : Index) ≠ VF ∧
      Instr.sub 0xE 0 ∈ [Instr.addReg 0xE 0, .sub 0xE 0, .shr 0xE, .subn 0xE 0, .shl 0xE] := by decide

theorem witness_BcdStoresDigits :
    Memory.wf (blank.setI 0xFFD).params.font (blank.setI 0xFFD).mem = true ∧ (blank.setI 0xFFD).i.toNat + 2 < 4096 ∧
      4096 ≤ (blank.setI 0xFFE).i.toNat + 2 := by decide

/-- Also the hypotheses of LoadRegisters and StoreThenLoadRestoresRegisters. -/
theorem witness_StoreRegisters :
    Memory.wf (blank.setI 0xFF0).params.font (blank.setI 0xFF0).mem = true ∧
      (blank.setI 0xFF0).i.toNat + (0xF : Index).val < 4096 ∧
      4096 ≤ (blank.setI 0xFF1).i.toNat + (0xF : Index).val := by decide

theorem witness_LoadRegisters :
    (blank.setI 0xFF0).i.toNat + (0xF : Index).val < 4096 ∧
      4096 ≤ (blank.setI 0xFF1).i.toNat + (0xF : Index).val := by decide

theorem witness_StoreThenLoadRestoresRegisters :
    Memory.wf (blank.setI 0xFF0).params.font (blank.setI 0xFF0).mem = true ∧
      (blank.setI 0xFF0).i.toNat + (0xF : Index).val < 4096 := by decide

theorem witness_CallThenReturnComesBack : blank.params.stackDepth ≠ some blank.stack.length := by decide

theorem witness_CanonicalMemoriesAreEqual :
    Memory.wf defaultFont [(0x050, 0x00), (0x300, 0x01)] = true ∧
      ∀ a, Memory.read defaultFont [(0x050, 0x00), (0x300, 0x01)] a =
        Memory.read defaultFont [(0x050, 0x00), (0x300, 0x01)] a := ⟨by decide, fun _ => rfl⟩

/-- The last byte fits, one row more does not, and no row at all reads nothing wherever I stands. -/
theorem witness_DrawXorsTheSprite :
    ((0 : Index) = 0 ∨ (blank.setI 0x1234).i.toNat + (0 : Index).val ≤ 4096) ∧
      ((1 : Index) = 0 ∨ (blank.setI 0xFFF).i.toNat + (1 : Index).val ≤ 4096) ∧
      ((2 : Index) ≠ 0 ∧ 4096 < (blank.setI 0xFFF).i.toNat + (2 : Index).val) := by decide

/-- A state with the sprite C0 at 0x300 and coordinates (63, 0): G1. -/
def drawState : State := (((blank.storeBytes 0x300 [0xC0]).setI 0x300).setV 1 0x3F)

/-- The state after its first draw serves as the state of the second: G2. -/
theorem witness_DrawingTwiceRestoresTheFrame :
    ((1 : Index) = 0 ∨ drawState.i.toNat + (1 : Index).val ≤ 4096) ∧
      ∃ t, exec (.drw 1 2 1) drawState = .next t ∧ t.i = drawState.i ∧ t.params = drawState.params ∧
        (∀ a, t.byteAt a = drawState.byteAt a) ∧ t.getV 1 = drawState.getV 1 ∧ t.getV 2 = drawState.getV 2 :=
  ⟨by decide, _, rfl, rfl, rfl, fun _ => rfl, by decide, by decide⟩

theorem witness_KeySkips :
    ((blank.setV 2 0xF).getV 2).toNat = (0xF : Index).val ∧ 0xF < ((blank.setV 2 0x10).getV 2).toNat := by decide

theorem witness_WaitForKey :
    (∀ k : Index, blank.keys[k] = false) ∧ (pressing [9, 5] blank).keys[(5 : Index)] = true ∧
      ∀ j : Index, j < 5 → (pressing [9, 5] blank).keys[j] = false := by decide

theorem witness_LoadCopiesOrRejects :
    Memory.wf blank.params.font blank.mem = true ∧ (List.replicate 3584 (0 : Byte)).length ≤ 3584 ∧
      3584 < (List.replicate 3585 (0 : Byte)).length := ⟨rfl, by rw [List.length_replicate], by rw [List.length_replicate]; decide⟩

theorem witness_PlacedWordRuns :
    Memory.wf blank.params.font blank.mem = true ∧ decode 0xD125 = some (.drw 1 2 5) := by decide

/-- Both ways in which a load may come, and one in which it may not. -/
theorem witness_HostLoadsOnlyBeforeTheFirstStep :
    (runOps ⟨blank, true⟩ [.load []]).isSome = true ∧ (runOps ⟨blank, false⟩ [.reset, .load []]).isSome = true ∧
      (runOps ⟨blank, true⟩ [.step, .load []]).isSome = false := by decide

theorem witness_SelfJumpStaysFinished : (blank.withFetchWord 16 0x1200).finished = true := by decide

end Sys2Proof.Tests
end

section
/-! The program-counter sequencer (spec/40_pc_sequencer.md): the frame of an operation that writes pc alone, the jump
targets as natural numbers, and the jumps and the skips that compare with an immediate. -/

namespace Sys2Proof.Machine

/-! ## Frames of the operations that write pc alone -/

theorem State.setPc_keepsAllBut (s : State) (w : Word) : KeepsAllBut [.pc] s (s.setPc w) := by
  intro p hp
  cases p
  case pc => exact absurd (List.mem_singleton_self _) hp
  all_goals simp [Part.same]

/-- A skip is a write of pc, whichever way its condition goes. -/
theorem State.skipIf_eq_setPc (s : State) (c : Bool) :
    s.skipIf c = s.setPc (if c then s.pc + 4 else s.pc + 2) := by
  cases c <;> rfl

theorem State.skipIf_keepsAllBut (s : State) (c : Bool) : KeepsAllBut [.pc] s (s.skipIf c) := by
  rw [s.skipIf_eq_setPc]
  exact s.setPc_keepsAllBut _

/-! ## Jump targets -/

@[simp] theorem zext16_toNat (nnn : Addr12) : (zext16 nnn).toNat = nnn.toNat :=
  BitVec.toNat_setWidth_of_le (by decide)

@[simp] theorem byteZext16_toNat (b : Byte) : (byteZext16 b).toNat = b.toNat :=
  BitVec.toNat_setWidth_of_le (by decide)

/-- The 16-bit sum of R107 cannot wrap: 4095 + 255 is below 65536. -/
theorem zext16_add_byteZext16_toNat (nnn : Addr12) (b : Byte) :
    (zext16 nnn + byteZext16 b).toNat = nnn.toNat + b.toNat := by
  have hn : nnn.toNat < 4096 := nnn.isLt
  have hb : b.toNat < 256 := b.isLt
  rw [BitVec.toNat_add, zext16_toNat, byteZext16_toNat]
  omega

/-! ## What the jumps and the immediate skips answer -/

theorem exec_jp (nnn : Addr12) (s : State) : exec (.jp nnn) s = .next (s.setPc (zext16 nnn)) := rfl

theorem exec_jpV0 (nnn : Addr12) (s : State) :
    exec (.jpV0 nnn) s = .next (s.setPc (zext16 nnn + byteZext16 (s.getV 0))) := rfl

theorem exec_seImm (x : Index) (nn : Byte) (s : State) :
    exec (.seImm x nn) s = .next (s.skipIf (s.getV x == nn)) := rfl

theorem exec_sneImm (x : Index) (nn : Byte) (s : State) :
    exec (.sneImm x nn) s = .next (s.skipIf (s.getV x != nn)) := rfl

/-- Settles O23: both jumps are one write of pc, and the sum of Bnnn does not reach the width of pc. -/
theorem jumpsSetPc : Obligations.JumpsSetPc := by
  intro nnn s
  constructor
  · exact ⟨_, exec_jp nnn s, zext16_toNat nnn, s.setPc_keepsAllBut _⟩
  · exact ⟨_, exec_jpV0 nnn s, zext16_add_byteZext16_toNat nnn (s.getV 0), s.setPc_keepsAllBut _⟩

/-- Settles O25: both skips are one `skipIf`, on the comparison of V[x] with nn as a Boolean. -/
theorem skipsCompareImmediate : Obligations.SkipsCompareImmediate := by
  intro x nn s
  constructor
  · exact ⟨_, exec_seImm x nn s, by simp only [State.skipIf_pc, beq_iff_eq], s.skipIf_keepsAllBut _⟩
  · exact ⟨_, exec_sneImm x nn s, by simp only [State.skipIf_pc, bne_iff_ne], s.skipIf_keepsAllBut _⟩

end Sys2Proof.Machine
end

section
/-! The register-file ALU (spec/41_register_alu.md): one write of a V register followed by the default advance, what it
sets and what it keeps, and the immediate and copy loads. -/

namespace Sys2Proof.Machine

/-! ## One register write and the default advance -/

theorem State.setV_advance_keepsRegsBut (s : State) (x : Index) (b : Byte) :
    KeepsRegsBut [x] s (s.setV x b).advance := by
  intro k hk
  rw [State.advance_getV, s.setV_getV_ne b (List.ne_of_not_mem_cons hk)]

theorem State.setV_advance_keepsAllBut (s : State) (x : Index) (b : Byte) :
    KeepsAllBut [.v, .pc] s (s.setV x b).advance := by
  intro p hp
  cases p
  case v | pc => exact absurd (by decide) hp
  all_goals simp [Part.same]

/-- Everything an instruction does that writes b to V[x] and advances (spec/41_register_alu.md R121 to R126). -/
theorem State.setV_advance_effect (s : State) (x : Index) (b : Byte) :
    (s.setV x b).advance.getV x = b ∧ (s.setV x b).advance.pc = s.pc + 2 ∧
      KeepsRegsBut [x] s (s.setV x b).advance ∧ KeepsAllBut [.v, .pc] s (s.setV x b).advance :=
  ⟨by simp, by simp, s.setV_advance_keepsRegsBut x b, s.setV_advance_keepsAllBut x b⟩

/-! ## What the immediate and copy loads answer -/

theorem exec_ldImm (x : Index) (nn : Byte) (s : State) : exec (.ldImm x nn) s = .next (s.setV x nn).advance := rfl

theorem exec_addImm (x : Index) (nn : Byte) (s : State) :
    exec (.addImm x nn) s = .next (s.setV x (s.getV x + nn)).advance := rfl

theorem exec_ldReg (x y : Index) (s : State) :
    exec (.ldReg x y) s = .next (s.setV x (s.getV y)).advance := rfl

/-- Settles O27: each of the three is one write of V[x] and the advance, and the 8-bit sum of 7xnn is the sum mod 256. -/
theorem immediateAndCopyLoads : Obligations.ImmediateAndCopyLoads := by
  intro x y nn s
  refine ⟨?ldImm, ?addImm, ?ldReg⟩
  case ldImm => exact ⟨_, exec_ldImm x nn s, s.setV_advance_effect x nn⟩
  case addImm =>
    obtain ⟨hx, hpc, hregs, hrest⟩ := s.setV_advance_effect x (s.getV x + nn)
    exact ⟨_, exec_addImm x nn s, by rw [hx, BitVec.toNat_add], hpc, hregs, hrest⟩
  case ldReg => exact ⟨_, exec_ldReg x y s, s.setV_advance_effect x (s.getV y)⟩

end Sys2Proof.Machine
end

section
/-! The index register (spec/42_index_memory.md): one write of I followed by the default advance, what it sets and what
it keeps, and the load and the add of I. -/

namespace Sys2Proof.Machine

/-! ## One write of I and the default advance -/

theorem State.setI_advance_keepsAllBut (s : State) (w : Word) : KeepsAllBut [.i, .pc] s (s.setI w).advance := by
  intro p hp
  cases p
  case i | pc => exact absurd (by decide) hp
  all_goals simp [Part.same]

/-- Everything an instruction does that writes w to I and advances (spec/42_index_memory.md R150 to R152). -/
theorem State.setI_advance_effect (s : State) (w : Word) :
    (s.setI w).advance.i = w ∧ (s.setI w).advance.pc = s.pc + 2 ∧ KeepsAllBut [.i, .pc] s (s.setI w).advance :=
  ⟨by simp, by simp, s.setI_advance_keepsAllBut w⟩

/-! ## What the load and the add of I answer -/

theorem exec_ldI (nnn : Addr12) (s : State) : exec (.ldI nnn) s = .next (s.setI (zext16 nnn)).advance := rfl

theorem exec_addI (x : Index) (s : State) :
    exec (.addI x) s = .next (s.setI (s.i + byteZext16 (s.getV x))).advance := rfl

/-- The sum of Fx1E is the 16-bit sum of R151, which wraps at 65536 and is not masked to 12 bits. -/
theorem add_byteZext16_toNat (w : Word) (b : Byte) :
    (w + byteZext16 b).toNat = (w.toNat + b.toNat) % 65536 := by
  rw [BitVec.toNat_add, byteZext16_toNat]

/-- Settles O36: both are one write of I and the advance, of the zero-extended nnn and of the 16-bit sum. -/
theorem indexLoadsAndAdds : Obligations.IndexLoadsAndAdds := by
  intro nnn x s
  constructor
  · obtain ⟨hi, hpc, hrest⟩ := s.setI_advance_effect (zext16 nnn)
    exact ⟨_, exec_ldI nnn s, by rw [hi, zext16_toNat], hpc, hrest⟩
  · obtain ⟨hi, hpc, hrest⟩ := s.setI_advance_effect (s.i + byteZext16 (s.getV x))
    exact ⟨_, exec_addI x s, by rw [hi, add_byteZext16_toNat], hpc, hrest⟩

end Sys2Proof.Machine
end

section
/-! The draw engine (spec/43_draw_engine.md): one write of the frame buffer followed by the default advance, and the clear
of the frame. -/

namespace Sys2Proof.Machine

/-! ## One write of the frame buffer and the default advance -/

theorem State.setFb_advance_keepsAllBut (s : State) (fb : Frame) :
    KeepsAllBut [.fb, .pc] s (s.setFb fb).advance := by
  intro p hp
  cases p
  case fb | pc => exact absurd (by decide) hp
  all_goals simp [Part.same]

/-! ## What the clear answers -/

theorem exec_cls (s : State) : exec .cls s = .next (s.setFb blankFrame).advance := rfl

/-- Settles O44: the clear writes the blank frame, which does not depend on the frame before it, and advances. -/
theorem clsClearsEveryPixel : Obligations.ClsClearsEveryPixel := by
  intro s
  refine ⟨_, exec_cls s, ?pixels, ?pc, s.setFb_advance_keepsAllBut blankFrame⟩
  case pixels =>
    intro p
    rw [State.advance_fb, State.setFb_fb, framePixel_blank]
  case pc => rw [State.advance_pc, State.setFb_pc]

end Sys2Proof.Machine
end

section
/-! The keys and the timers (spec/44_keys_timers.md): the lowest pressed key as the model finds it, the wait for a key,
one write of a timer followed by the default advance, and the three timer moves. -/

namespace Sys2Proof.Machine

/-! ## The lowest pressed key -/

theorem State.keys_getElem? (s : State) (k : Index) : s.keys[k.val]? = some s.keys[k] :=
  Vector.getElem?_eq_getElem k.isLt

/-- The scan finds k, min(P) of R192, when k is pressed and no lower key is. -/
theorem State.lowestKey_eq_some {s : State} {k : Index} (hk : s.keys[k] = true)
    (hlow : ∀ j : Index, j < k → s.keys[j] = false) : s.lowestKey = some k.val := by
  rcases hfound : s.lowestKey with _ | m
  · exact absurd (State.lowestKey_none.mp hfound k) (by simp [hk])
  · obtain ⟨hm, hbelow⟩ := State.lowestKey_some hfound
    rcases Nat.lt_trichotomy m k.val with hlt | rfl | hgt
    · have hread := s.keys_getElem? ⟨m, hlt.trans k.isLt⟩
      rw [hlow _ hlt, hm] at hread
      simp at hread
    · rfl
    · have hread := hbelow k.val hgt
      rw [s.keys_getElem? k, hk] at hread
      simp at hread

/-! ## What the wait for a key answers -/

theorem exec_ldVxK_of_none {s : State} (x : Index) (h : s.lowestKey = none) : exec (.ldVxK x) s = .next s := by
  simp only [exec, execLdVxK, h]

theorem exec_ldVxK_of_some {s : State} (x : Index) {k : Nat} (h : s.lowestKey = some k) :
    exec (.ldVxK x) s = .next (s.setV x (BitVec.ofNat 8 k)).advance := by
  simp only [exec, execLdVxK, h]

/-- A key index fits a register. -/
theorem ofNat_index_toNat (k : Index) : (BitVec.ofNat 8 k.val).toNat = k.val :=
  Nat.mod_eq_of_lt (k.isLt.trans (by decide))

/-- Settles O49: the scan of the keys finds none, or finds the lowest pressed one, which V[x] then holds. -/
theorem waitForKey : Obligations.WaitForKey := by
  intro x s
  constructor
  · intro hnone
    exact exec_ldVxK_of_none x (State.lowestKey_none.mpr hnone)
  · intro k hk hlow
    obtain ⟨hx, hpc, hregs, hrest⟩ := s.setV_advance_effect x (BitVec.ofNat 8 k.val)
    exact ⟨_, exec_ldVxK_of_some x (State.lowestKey_eq_some hk hlow), by rw [hx, ofNat_index_toNat], hpc, hregs,
      hrest⟩

/-! ## One write of a timer and the default advance -/

theorem State.setDt_advance_keepsAllBut (s : State) (b : Byte) : KeepsAllBut [.dt, .pc] s (s.setDt b).advance := by
  intro p hp
  cases p
  case dt | pc => exact absurd (by decide) hp
  all_goals simp [Part.same]

theorem State.setSt_advance_keepsAllBut (s : State) (b : Byte) : KeepsAllBut [.st, .pc] s (s.setSt b).advance := by
  intro p hp
  cases p
  case st | pc => exact absurd (by decide) hp
  all_goals simp [Part.same]

/-- The sound output is on exactly while ST is not 0 (spec/44_keys_timers.md R195). -/
theorem State.sound_iff (s : State) : s.sound = true ↔ s.st ≠ 0 := bne_iff_ne

/-! ## What the timer moves answer -/

theorem exec_ldVxDt (x : Index) (s : State) : exec (.ldVxDt x) s = .next (s.setV x s.dt).advance := rfl

theorem exec_ldDtVx (x : Index) (s : State) : exec (.ldDtVx x) s = .next (s.setDt (s.getV x)).advance := rfl

theorem exec_ldStVx (x : Index) (s : State) : exec (.ldStVx x) s = .next (s.setSt (s.getV x)).advance := rfl

/-- Settles O50: each of the three is one write, of V[x], of DT or of ST, and the advance. -/
theorem timerMoves : Obligations.TimerMoves := by
  intro x s
  refine ⟨?ldVxDt, ?ldDtVx, ?ldStVx⟩
  case ldVxDt => exact ⟨_, exec_ldVxDt x s, s.setV_advance_effect x s.dt⟩
  case ldDtVx =>
    exact ⟨_, exec_ldDtVx x s, by rw [State.advance_dt, State.setDt_dt], by rw [State.advance_pc, State.setDt_pc],
      s.setDt_advance_keepsAllBut _⟩
  case ldStVx =>
    have hst : (s.setSt (s.getV x)).advance.st = s.getV x := by rw [State.advance_st, State.setSt_st]
    exact ⟨_, exec_ldStVx x s, hst, by rw [State.sound_iff, hst], by rw [State.advance_pc, State.setSt_pc],
      s.setSt_advance_keepsAllBut _⟩

end Sys2Proof.Machine
end

section
/-! The decoder and the encoder (spec/30_encoding.md sections 2 and 3): decoding undoes encoding, encoding undoes
decoding but for the ignored field of the shifts, and the decoder follows the opcode table. -/

namespace Sys2Proof.Laws.Encoded

/-- Every instruction's word matches the row of its mnemonic: the family of Laws/PerInstr. -/
theorem statement_all : ∀ i : Instr, Statement i
  | .cls => cls
  | .ret => ret
  | .jp _ => jp _
  | .call _ => call _
  | .seImm _ _ => seImm _ _
  | .sneImm _ _ => sneImm _ _
  | .seReg _ _ => seReg _ _
  | .ldImm _ _ => ldImm _ _
  | .addImm _ _ => addImm _ _
  | .ldReg _ _ => ldReg _ _
  | .orReg _ _ => orReg _ _
  | .andReg _ _ => andReg _ _
  | .xorReg _ _ => xorReg _ _
  | .addReg _ _ => addReg _ _
  | .sub _ _ => sub _ _
  | .shr _ => shr _
  | .subn _ _ => subn _ _
  | .shl _ => shl _
  | .sneReg _ _ => sneReg _ _
  | .ldI _ => ldI _
  | .jpV0 _ => jpV0 _
  | .rnd _ _ => rnd _ _
  | .drw _ _ _ => drw _ _ _
  | .skp _ => skp _
  | .sknp _ => sknp _
  | .ldVxDt _ => ldVxDt _
  | .ldVxK _ => ldVxK _
  | .ldDtVx _ => ldDtVx _
  | .ldStVx _ => ldStVx _
  | .addI _ => addI _
  | .ldF _ => ldF _
  | .ldB _ => ldB _
  | .ldMemVx _ => ldMemVx _
  | .ldVxMem _ => ldVxMem _

end Sys2Proof.Laws.Encoded

namespace Sys2Proof

/-! ## Decoding an encoded instruction -/

/-- Settles O2: per format, the fields of the encoded word are the ones the instruction was built from. -/
theorem decodeOfEncode : Obligations.DecodeOfEncode := by
  intro i
  cases i
  case cls | ret => rfl
  case jp | call | ldI | jpV0 => simp [encode, decode]
  case seImm | sneImm | ldImm | addImm | rnd => simp [encode, decode]
  case seReg | sneReg | drw => simp [encode, decode]
  case ldReg | orReg | andReg | xorReg | addReg | sub | shr | subn | shl => simp [encode, decode, decode8]
  case skp | sknp => simp [encode, decode, decodeE]
  all_goals simp [encode, decode, decodeF]

/-! ## Encoding a decoded word -/

section
variable {w : Word} {p : BitVec 4} {i : Instr}

theorem fieldP_eq_of_toNat {k : Nat} (h : (fieldP w).toNat = k) : fieldP w = BitVec.ofNat 4 k := by
  rw [← h, BitVec.ofNat_toNat, BitVec.setWidth_eq]

theorem encodeFA_of_fields (hp : fieldP w = p) : encodeFA p (fieldNNN w) = w := by
  rw [← hp, encodeFA_fields]

theorem encodeFB_of_fields {nn : Byte} (hp : fieldP w = p) (hnn : fieldNN w = nn) :
    encodeFB p (fieldX w) nn = w := by
  rw [← hp, ← hnn, encodeFB_fields]

theorem encodeFR_of_fields {n : Index} (hp : fieldP w = p) (hn : fieldN w = n) :
    encodeFR p (fieldX w) (fieldY w) n = w := by
  rw [← hp, ← hn, encodeFR_fields]

/-- The mask that clears the ignored field y. -/
theorem and_FF0F (w : Word) : w &&& 0xFF0F#16 = encodeFR (fieldP w) (fieldX w) 0 (fieldN w) := by
  apply BitVec.eq_of_getLsbD_eq
  intro k hk
  rw [BitVec.getLsbD_and, getLsbD_encodeFR, fieldP, fieldX, fieldN, nibble, nibble, nibble, BitVec.ofFin_toFin,
    BitVec.ofFin_toFin, BitVec.getLsbD_extractLsb', BitVec.getLsbD_extractLsb', BitVec.getLsbD_extractLsb']
  interval_cases k <;> simp

theorem encodeFR_zero_of_fields {n : Index} (hp : fieldP w = p) (hn : fieldN w = n) :
    encodeFR p (fieldX w) 0 n = w &&& 0xFF0F#16 := by
  rw [and_FF0F, hp, hn]

/-- The word of i is w, but for the ignored field y of the shifts. -/
def IsWordOf (w : Word) (i : Instr) : Prop :=
  encode i = w ∨ (∃ x, i = .shr x ∨ i = .shl x) ∧ encode i = w &&& 0xFF0F#16

theorem encode_of_decode0 (h : decode0 w = some i) : encode i = w := by
  unfold decode0 at h
  split_ifs at h with hw hw <;> cases h <;> exact hw.symm

theorem encode_of_decodeE (hp : fieldP w = 0xE) (h : decodeE w = some i) : encode i = w := by
  unfold decodeE at h
  split_ifs at h with hnn hnn <;> cases h <;> exact encodeFB_of_fields hp hnn

theorem encode_of_decodeF (hp : fieldP w = 0xF) (h : decodeF w = some i) : encode i = w := by
  unfold decodeF at h
  split_ifs at h with hnn hnn hnn hnn hnn hnn hnn hnn hnn <;> cases h <;> exact encodeFB_of_fields hp hnn

theorem isWordOf_of_decode8 (hp : fieldP w = 0x8) (h : decode8 w = some i) : IsWordOf w i := by
  unfold decode8 at h
  split at h
  case h_7 hn =>
    cases h
    exact .inr ⟨⟨_, .inl rfl⟩, encodeFR_zero_of_fields hp (Fin.ext hn)⟩
  case h_9 hn =>
    cases h
    exact .inr ⟨⟨_, .inr rfl⟩, encodeFR_zero_of_fields hp (Fin.ext hn)⟩
  case h_10 => cases h
  all_goals
    next hn =>
    cases h
    exact .inl (encodeFR_of_fields hp (Fin.ext hn))

theorem isWordOf_of_decode (h : decode w = some i) : IsWordOf w i := by
  unfold decode at h
  split at h
  case h_1 => exact .inl (encode_of_decode0 h)
  case h_6 hp | h_10 hp =>
    split_ifs at h with hn
    cases h
    exact .inl (encodeFR_of_fields (fieldP_eq_of_toNat hp) hn)
  case h_9 hp => exact isWordOf_of_decode8 (fieldP_eq_of_toNat hp) h
  case h_14 hp =>
    cases h
    exact .inl (encodeFR_of_fields (fieldP_eq_of_toNat hp) rfl)
  case h_15 hp => exact .inl (encode_of_decodeE (fieldP_eq_of_toNat hp) h)
  case h_16 =>
    have hp : (fieldP w).toNat = 0xF := by
      have := (fieldP w).isLt
      simp only [imp_false] at *
      omega
    exact .inl (encode_of_decodeF (fieldP_eq_of_toNat hp) h)
  case h_4 hp | h_5 hp | h_7 hp | h_8 hp | h_13 hp =>
    cases h
    exact .inl (encodeFB_of_fields (fieldP_eq_of_toNat hp) rfl)
  all_goals
    next hp =>
    cases h
    exact .inl (encodeFA_of_fields (fieldP_eq_of_toNat hp))
end

theorem and_FF0F_encodeFR (p : BitVec 4) (x n : Index) : encodeFR p x 0 n &&& 0xFF0F#16 = encodeFR p x 0 n := by
  rw [and_FF0F, fieldP_encodeFR, fieldX_encodeFR, fieldN_encodeFR]

/-- Settles O3: the word of i is w up to the cleared y, and a word of a shift has that y cleared already. -/
theorem encodeOfDecode : Obligations.EncodeOfDecode := by
  intro w i h
  rcases isWordOf_of_decode h with rfl | ⟨⟨x, hi⟩, hw⟩
  · refine ⟨?_, fun _ => rfl⟩
    rintro ⟨x, rfl | rfl⟩ <;> exact (and_FF0F_encodeFR _ _ _).symm
  · refine ⟨fun _ => hw, fun hno => ?_⟩
    exact absurd hi (not_or.mpr (hno x))

/-- Settles O5: the shifts read no y, and by O3 any other instruction has one word. -/
theorem shiftsIgnoreTheirYField : Obligations.ShiftsIgnoreTheirYField := by
  refine ⟨fun x y => ⟨by simp [decode, decode8], by simp [decode, decode8]⟩, fun w w' i h h' hne => ?_⟩
  by_contra hno
  have hno' : ∀ x, i ≠ .shr x ∧ i ≠ .shl x := fun x => not_or.mp fun hi => hno ⟨x, hi⟩
  exact hne (((encodeOfDecode w i h).2 hno').symm.trans ((encodeOfDecode w' i h').2 hno'))

/-! ## The literal digits of a word -/

theorem fieldP_and (w m : Word) : fieldP (w &&& m) = fieldP w &&& fieldP m := BitVec.extractLsb'_and ..

/-- The digits of a word that its format fixes, all ones at each: the mask of the word's row, by its first digit. -/
def literalMask (w : Word) : Word :=
  match (fieldP w).toNat with
  | 0x0 => 0xFFFF#16
  | 0x5 | 0x8 | 0x9 => 0xF00F#16
  | 0xE | 0xF => 0xF0FF#16
  | _ => 0xF000#16

theorem fieldP_literalMask (w : Word) : fieldP (literalMask w) = 0xF#4 := by
  unfold literalMask
  split <;> rfl

theorem mnemonic_congr_decode8 {w pattern : Word} (h : fieldN w = fieldN pattern) :
    (decode8 w).map Instr.mnemonic = (decode8 pattern).map Instr.mnemonic := by
  unfold decode8
  rw [h]
  split <;> rfl

theorem mnemonic_congr_decodeE {w pattern : Word} (h : fieldNN w = fieldNN pattern) :
    (decodeE w).map Instr.mnemonic = (decodeE pattern).map Instr.mnemonic := by
  unfold decodeE
  rw [h]
  split_ifs <;> rfl

theorem mnemonic_congr_decodeF {w pattern : Word} (h : fieldNN w = fieldNN pattern) :
    (decodeF w).map Instr.mnemonic = (decodeF pattern).map Instr.mnemonic := by
  unfold decodeF
  rw [h]
  split_ifs <;> rfl

theorem fieldN_of_and_F00F {w pattern : Word} (h : w &&& 0xF00F#16 = pattern) : fieldN w = fieldN pattern := by
  rw [← h, and_F00F, fieldN_encodeFR]

theorem fieldNN_of_and_F0FF {w pattern : Word} (h : w &&& 0xF0FF#16 = pattern) : fieldNN w = fieldNN pattern := by
  rw [← h, and_F0FF, fieldNN_encodeFB]

/-- The row an instruction belongs to is decided by its word's literal digits alone (spec/30_encoding.md R78). -/
theorem mnemonic_decode_of_literals {w pattern : Word} (h : w &&& literalMask pattern = pattern) :
    (decode w).map Instr.mnemonic = (decode pattern).map Instr.mnemonic := by
  have hp : fieldP w = fieldP pattern :=
    calc
      fieldP w = fieldP w &&& fieldP (literalMask pattern) := by
        rw [fieldP_literalMask]
        exact BitVec.and_allOnes.symm
      _ = fieldP pattern := by rw [← fieldP_and, h]
  unfold decode
  rw [hp]
  split
  case h_1 hd =>
    simp only [literalMask, hd] at h
    rw [show w = pattern from BitVec.and_allOnes.symm.trans h]
  case h_6 hd | h_10 hd =>
    simp only [literalMask, hd] at h
    rw [fieldN_of_and_F00F h]
    split_ifs <;> rfl
  case h_9 hd =>
    simp only [literalMask, hd] at h
    exact mnemonic_congr_decode8 (fieldN_of_and_F00F h)
  case h_15 hd =>
    simp only [literalMask, hd] at h
    exact mnemonic_congr_decodeE (fieldNN_of_and_F0FF h)
  case h_16 =>
    have hd : (fieldP pattern).toNat = 0xF := by
      have := (fieldP pattern).isLt
      simp only [imp_false] at *
      omega
    simp only [literalMask, hd] at h
    exact mnemonic_congr_decodeF (fieldNN_of_and_F0FF h)
  all_goals rfl

/-! ## The opcode table -/

theorem opcodeTable_literals : ∀ r ∈ opcodeTable,
    r.mask = literalMask r.pattern ∧ (decode r.pattern).map Instr.mnemonic = some r.mnemonic := by decide

theorem opcodeTable_mnemonic_nodup : (opcodeTable.map Row.mnemonic).Nodup := by decide

theorem Row.covers_iff {r : Row} {w : Word} : r.covers w = true ↔ w &&& r.mask = r.pattern := beq_iff_eq

/-- A word a row covers decodes to an instruction of the row. -/
theorem decode_of_covers {w : Word} {r : Row} (hr : r ∈ opcodeTable) (h : r.covers w = true) :
    ∃ i, decode w = some i ∧ i.mnemonic = r.mnemonic := by
  obtain ⟨hmask, hmnemonic⟩ := opcodeTable_literals r hr
  rw [Row.covers_iff, hmask] at h
  exact Option.map_eq_some_iff.mp ((mnemonic_decode_of_literals h).trans hmnemonic)

/-- No row of the shifts has a literal digit at the ignored field y. -/
theorem shift_row_mask : ∀ r ∈ opcodeTable, r.mnemonic = "SHR" ∨ r.mnemonic = "SHL" →
    0xFF0F#16 &&& r.mask = r.mask := by decide

/-- The row of a decoded instruction covers its word. -/
theorem covers_of_decode {w : Word} {i : Instr} {r : Row} (hr : r ∈ opcodeTable) (h : decode w = some i)
    (hi : i.mnemonic = r.mnemonic) : r.covers w = true := by
  have hcov : r.covers (encode i) = true := by
    obtain ⟨r', hr', hm, hcov⟩ := Laws.Encoded.statement_all i
    rwa [List.inj_on_of_nodup_map opcodeTable_mnemonic_nodup hr' hr (hm.trans hi)] at hcov
  rcases isWordOf_of_decode h with hw | ⟨⟨x, hx⟩, hw⟩
  · rwa [hw] at hcov
  · have hshift : r.mnemonic = "SHR" ∨ r.mnemonic = "SHL" := by
      rw [← hi]
      exact hx.imp (congrArg Instr.mnemonic) (congrArg Instr.mnemonic)
    rwa [Row.covers_iff, hw, BitVec.and_assoc, shift_row_mask r hr hshift, ← Row.covers_iff] at hcov

/-- Settles O4: the literal digits decide the row, and an instruction's word shows its own row's. -/
theorem decodeFollowsTable : Obligations.DecodeFollowsTable := by
  refine ⟨fun w r hr => ⟨decode_of_covers hr, fun ⟨i, hd, hi⟩ => covers_of_decode hr hd hi⟩, fun w => ⟨?_, ?_⟩⟩
  · intro hnone r hr
    by_contra hcov
    obtain ⟨i, hd, -⟩ := decode_of_covers hr (Bool.eq_true_of_not_eq_false hcov)
    simp [hnone] at hd
  · intro hall
    by_contra hsome
    obtain ⟨i, hd⟩ := Option.ne_none_iff_exists'.mp hsome
    obtain ⟨r, hr, hm, -⟩ := Laws.Encoded.statement_all i
    exact absurd (covers_of_decode hr hd hm.symm) (by simp [hall r hr])

theorem wordWellFormed_eq_false {w : Word} : wordWellFormed w = false ↔ decode w = none := by
  rw [decodeFollowsTable.2 w, wordWellFormed, List.any_eq_false]
  simp only [Bool.not_eq_true]

/-- Settles O1: each word is a closed instance of the decoder. -/
theorem specWordsDecode : Obligations.SpecWordsDecode := by
  unfold Obligations.SpecWordsDecode
  decide

end Sys2Proof
end

section
/-! Running one instruction, with the state it completes in written out: it answers that state, or the halt on the one
fault its rule names. The frames of all instructions are read off that state. -/

namespace Sys2Proof.Machine

/-- The state an instruction completes in, where it raises no fault (spec/40 to spec/44). -/
def completion (i : Instr) (s : State) : State :=
  match i with
  | .cls => (s.setFb blankFrame).advance
  | .ret => s.dropTop.setPc (s.stack.getLast?.getD 0)
  | .jp nnn => s.setPc (zext16 nnn)
  | .call nnn => (s.push (s.pc + 2)).setPc (zext16 nnn)
  | .seImm x nn => s.skipIf (s.getV x == nn)
  | .sneImm x nn => s.skipIf (s.getV x != nn)
  | .seReg x y => s.skipIf (s.getV x == s.getV y)
  | .ldImm x nn => (s.setV x nn).advance
  | .addImm x nn => (s.setV x (s.getV x + nn)).advance
  | .ldReg x y => (s.setV x (s.getV y)).advance
  | .orReg x y => (s.setV x (s.getV x ||| s.getV y)).advance
  | .andReg x y => (s.setV x (s.getV x &&& s.getV y)).advance
  | .xorReg x y => (s.setV x (s.getV x ^^^ s.getV y)).advance
  | .addReg x y =>
    (s.writeResultAndFlag x (s.getV x + s.getV y) (carryFlag (s.getV x) (s.getV y))
      (fun _ => s.getV x + s.getV y)).advance
  | .sub x y =>
    (s.writeResultAndFlag x (s.getV x - s.getV y) (noBorrowFlag (s.getV x) (s.getV y))
      (fun s' => s'.getV x - s'.getV y)).advance
  | .shr x =>
    (s.writeResultAndFlag x (s.getV x >>> 1) (lowBitFlag (s.getV x)) (fun s' => s'.getV x >>> 1)).advance
  | .subn x y =>
    (s.writeResultAndFlag x (s.getV y - s.getV x) (noBorrowFlag (s.getV y) (s.getV x))
      (fun s' => s'.getV y - s'.getV x)).advance
  | .shl x =>
    (s.writeResultAndFlag x (s.getV x <<< 1) (highBitFlag (s.getV x)) (fun s' => s'.getV x <<< 1)).advance
  | .sneReg x y => s.skipIf (s.getV x != s.getV y)
  | .ldI nnn => (s.setI (zext16 nnn)).advance
  | .jpV0 nnn => s.setPc (zext16 nnn + byteZext16 (s.getV 0))
  | .rnd x nn => (s.setV x (s.randByte &&& nn)).nextDraw.advance
  | .drw x y n =>
    ((s.setFb (drawPixels s.fb false (s.drawnPixels x y n)).1).setV VF
      (flag (drawPixels s.fb false (s.drawnPixels x y n)).2)).advance
  | .skp x => s.skipIf ((s.keyAt (s.getV x)).getD false)
  | .sknp x => s.skipIf (!(s.keyAt (s.getV x)).getD false)
  | .ldVxDt x => (s.setV x s.dt).advance
  | .ldVxK x => s.lowestKey.elim s fun k => (s.setV x (BitVec.ofNat 8 k)).advance
  | .ldDtVx x => (s.setDt (s.getV x)).advance
  | .ldStVx x => (s.setSt (s.getV x)).advance
  | .addI x => (s.setI (s.i + byteZext16 (s.getV x))).advance
  | .ldF x => (s.setI (glyphAddress (fontDigit s.params.fx29Wide (s.getV x)))).advance
  | .ldB x => (s.storeBytes s.indexBase (bcdDigits (s.getV x))).advance
  | .ldMemVx x => (s.storeBytes s.indexBase (s.regsUpTo x)).advance
  | .ldVxMem x => (s.loadV (s.bytesAt s.indexBase (x.val + 1))).advance

/-! ## The two ways an instruction ends -/

/-- An instruction that can raise no fault but the memory fault raises none when its transfer is in bounds. -/
theorem not_raisesIn_of_inBounds {i : Instr} {s : State} {n : Nat} (h : transferLength i = some n)
    (hn : n = 0 ∨ s.i.toNat + n ≤ 4096) (f : Fault) : ¬RaisesIn i s f := by
  intro hf
  cases f
  case unknownOpcode => exact hf
  case stackUnderflow =>
    obtain ⟨rfl, -⟩ := hf
    cases h
  case stackOverflow =>
    obtain ⟨⟨nnn, rfl⟩, -⟩ := hf
    cases h
  case memoryOutOfBounds a =>
    obtain ⟨m, hm, hpos, hout, -⟩ := hf
    cases h.symm.trans hm
    omega
  case keyIndexOutOfRange k =>
    obtain ⟨-, x, rfl | rfl, -⟩ := hf <;> cases h

/-- A transfer that passes the last byte raises the memory fault at its first address out of range. -/
theorem raisesIn_of_outOfBounds {i : Instr} {s : State} {n : Nat} (h : transferLength i = some n) (hpos : 0 < n)
    (hout : 4096 < s.i.toNat + n) : RaisesIn i s (.memoryOutOfBounds (max s.i.toNat 4096)) :=
  ⟨n, h, hpos, hout, rfl⟩

theorem exec_of_raises {i : Instr} {s : State} {f : Fault} (h : RaisesIn i s f) :
    exec i s = .next (s.raise f (some (encode i))) := by
  cases f
  case unknownOpcode => exact h.elim
  case stackUnderflow =>
    obtain ⟨rfl, hs⟩ := h
    simp [exec, execRet, hs, raiseIn]
  case stackOverflow =>
    obtain ⟨⟨nnn, rfl⟩, hs⟩ := h
    simp [exec, execCall, s.stackFull_iff.mpr hs, raiseIn]
  case memoryOutOfBounds a =>
    obtain ⟨n, hn, hpos, hout, rfl⟩ := h
    have hb := boundsFault_some.mpr ⟨⟨hpos.ne', hout⟩, rfl⟩
    cases i <;> cases hn <;>
      simp only [exec, execDrw, execLdB, execLdMemVx, execLdVxMem, State.indexBase, hb, raiseIn]
  case keyIndexOutOfRange k =>
    obtain ⟨hk, x, rfl | rfl, rfl⟩ := h
    · simp only [exec, execSkp, s.keyAt_none hk, raiseIn]
    · simp only [exec, execSknp, s.keyAt_none hk, raiseIn]

theorem exec_of_not_raises {i : Instr} {s : State} (h : ∀ f, ¬RaisesIn i s f) :
    exec i s = .next (completion i s) := by
  have hbounds : ∀ n, transferLength i = some n → boundsFault s.indexBase n = none := by
    intro n hn
    rcases boundsFault_cases hn with ⟨hb, -⟩ | ⟨f, -, hf⟩
    · exact hb
    · exact absurd hf (h f)
  cases i
  case ret =>
    rcases hs : s.stack.getLast? with _ | v
    · exact absurd ⟨rfl, List.getLast?_eq_none_iff.mp hs⟩ (h .stackUnderflow)
    · simp only [exec, execRet, completion, hs, Option.getD_some]
  case call nnn =>
    have hfull : s.stackFull = false :=
      Bool.eq_false_iff.mpr fun hf => h .stackOverflow ⟨⟨nnn, rfl⟩, s.stackFull_iff.mp hf⟩
    simp [exec, execCall, completion, hfull]
  case skp x =>
    have hk : (s.getV x).toNat < 16 :=
      Nat.lt_of_not_le fun hk => h (.keyIndexOutOfRange _) ⟨hk, x, .inl rfl, rfl⟩
    simp only [exec, execSkp, completion, s.keyAt_key hk, Option.getD_some]
  case sknp x =>
    have hk : (s.getV x).toNat < 16 :=
      Nat.lt_of_not_le fun hk => h (.keyIndexOutOfRange _) ⟨hk, x, .inr rfl, rfl⟩
    simp only [exec, execSknp, completion, s.keyAt_key hk, Option.getD_some]
  case ldVxK x =>
    rcases hk : s.lowestKey with _ | k <;> simp only [exec, execLdVxK, completion, hk, Option.elim]
  case drw => simp only [exec, execDrw, completion, hbounds _ rfl]
  case ldB => simp only [exec, execLdB, completion, hbounds _ rfl]
  case ldMemVx => simp only [exec, execLdMemVx, completion, hbounds _ rfl]
  case ldVxMem => simp only [exec, execLdVxMem, completion, hbounds _ rfl]
  all_goals rfl

/-- An instruction answers the state it completes in, or halts on the fault its rule names. -/
theorem exec_next_cases {i : Instr} {s t : State} (h : exec i s = .next t) :
    (∃ f, RaisesIn i s f ∧ t = s.raise f (some (encode i))) ∨ (∀ f, ¬RaisesIn i s f) ∧ t = completion i s := by
  by_cases hf : ∃ f, RaisesIn i s f
  · obtain ⟨f, hf⟩ := hf
    rw [exec_of_raises hf] at h
    exact .inl ⟨f, hf, (Host.Outcome.next.inj h).symm⟩
  · rw [not_exists] at hf
    rw [exec_of_not_raises hf] at h
    exact .inr ⟨hf, (Host.Outcome.next.inj h).symm⟩

end Sys2Proof.Machine
end

section
/-! One step of the block (spec/30_encoding.md R70, spec/60_exceptions.md section 1): the instruction it runs, the
faults that halt it, and what the record says. -/

namespace Sys2Proof.Machine

/-! ## A step that runs an instruction -/

/-- Settles O6: the halted, out-of-range and Unknown cases of a step contradict the hypotheses. -/
theorem stepRunsDecodedInstruction : Obligations.StepRunsDecodedInstruction := by
  intro s i hrun hfetch
  obtain ⟨hpc, hd⟩ := hfetch
  rcases step_cases s with ⟨hh, -⟩ | ⟨-, hout, -⟩ | ⟨-, -, hnone, -⟩ | ⟨-, -, j, hj, hstep⟩
  · simp [hrun] at hh
  · omega
  · cases hnone.symm.trans hd
  · cases hj.symm.trans hd
    exact hstep

/-- Running an instruction always answers a next state. -/
theorem exec_next (i : Instr) (s : State) : ∃ t, exec i s = .next t := by
  rcases exec_cases i s with ⟨f, h, -⟩ | ⟨t, h, -⟩
  · exact ⟨_, h⟩
  · exact ⟨t, h⟩

/-- Settles O10: a fault is taken as a next state, in the fetch and in the instruction alike. -/
theorem stepAlwaysAnswersNext : Obligations.StepAlwaysAnswersNext := by
  intro s
  rcases step_cases s with ⟨-, h⟩ | ⟨-, -, h⟩ | ⟨-, -, -, h⟩ | ⟨-, -, i, -, h⟩
  · exact ⟨_, h⟩
  · exact ⟨_, h⟩
  · exact ⟨_, h⟩
  · rw [h]
    exact exec_next i s

/-- Settles O17: a fault and a completion both keep the inputs and the parameters. -/
theorem stepNeverChangesInputs : Obligations.StepNeverChangesInputs := by
  intro s t ht
  rcases step_cases s with ⟨-, h⟩ | ⟨-, -, h⟩ | ⟨-, -, -, h⟩ | ⟨-, -, i, -, h⟩
  case inr.inr.inr =>
    rcases exec_cases i s with ⟨f, he, -⟩ | ⟨u, he, -, -, hkeys, hparams⟩
    · cases (h.trans he).symm.trans ht
      exact ⟨rfl, rfl⟩
    · cases (h.trans he).symm.trans ht
      exact ⟨hkeys, hparams⟩
  all_goals
    cases h.symm.trans ht
    exact ⟨rfl, rfl⟩

/-! ## A step that halts the block -/

theorem stepReport_of_next {s t : State} (h : step s = .next t) : s.stepReport = (t, t.fault) := by
  simp only [State.stepReport, h]

/-- Settles O9: a halted block is its own next state, record included. -/
theorem haltedStepReportsAgain : Obligations.HaltedStepReportsAgain := by
  intro s hh
  have hstep : step s = .next s := by simp only [step, hh, if_true]
  exact ⟨hstep, stepReport_of_next hstep⟩

/-- The faults of one step, each with the record's word (spec/60_exceptions.md R210, R217). -/
inductive StepRaises (s : State) : Fault → Option Word → Prop where
  | fetch (h : 4096 ≤ s.pc.toNat + 1) : StepRaises s (.memoryOutOfBounds (max s.pc.toNat 4096)) none
  | unknown (h : s.pc.toNat + 1 < 4096) (hd : decode (s.wordAt s.pc.toNat) = none) :
    StepRaises s .unknownOpcode (some (s.wordAt s.pc.toNat))
  | instr {i : Instr} {f : Fault} (h : s.Fetches i) (hf : RaisesIn i s f) : StepRaises s f (some (encode i))

/-- A step that raises a fault halts on it. -/
theorem step_of_raises {s : State} {f : Fault} {word : Option Word} (hrun : s.halted = false)
    (h : StepRaises s f word) : step s = .next (s.raise f word) := by
  cases h with
  | fetch hpc =>
    rcases step_cases s with ⟨hh, -⟩ | ⟨-, -, h⟩ | ⟨-, hin, -⟩ | ⟨-, hin, -⟩
    · simp [hrun] at hh
    · exact h
    · omega
    · omega
  | unknown hpc hd =>
    rcases step_cases s with ⟨hh, -⟩ | ⟨-, hout, -⟩ | ⟨-, -, -, h⟩ | ⟨-, -, i, hi, -⟩
    · simp [hrun] at hh
    · omega
    · exact h
    · cases hd.symm.trans hi
  | instr hfetch hf => rw [stepRunsDecodedInstruction s _ hrun hfetch, exec_of_raises hf]

/-- A step halts the block only on a fault it raises. -/
theorem step_halts_cases {s t : State} (hrun : s.halted = false) (hs : step s = .next t) (ht : t.halted = true) :
    ∃ f word, StepRaises s f word ∧ t = s.raise f word := by
  rcases step_cases s with ⟨hh, -⟩ | ⟨-, hout, h⟩ | ⟨-, hin, hd, h⟩ | ⟨-, hin, i, hd, h⟩
  · simp [hrun] at hh
  · cases h.symm.trans hs
    exact ⟨_, _, .fetch (by omega), rfl⟩
  · cases h.symm.trans hs
    exact ⟨_, _, .unknown (by omega) hd, rfl⟩
  · rcases exec_cases i s with ⟨f, he, hf⟩ | ⟨u, he, hhalt, -⟩
    · cases (h.trans he).symm.trans hs
      exact ⟨f, _, .instr ⟨hin, hd⟩ hf, rfl⟩
    · cases (h.trans he).symm.trans hs
      simp [hhalt, hrun] at ht

/-- Settles O7: by the opcode table, the word of the statement is one the decoder rejects. -/
theorem unknownWordHalts : Obligations.UnknownWordHalts := by
  intro s hrun hpc hw
  exact ⟨rfl, _, step_of_raises hrun (.unknown hpc (wordWellFormed_eq_false.mp hw)), s.raise_haltsWith _ _⟩

/-- Settles O8: both addresses fail the fetch, whose first address out of range is max(pc, 4096). -/
theorem fetchOutOfBoundsHalts : Obligations.FetchOutOfBoundsHalts := by
  intro s hrun
  constructor
  · intro hpc
    rw [← Nat.max_eq_left hpc]
    exact ⟨_, step_of_raises hrun (.fetch (Nat.le_succ_of_le hpc)), s.raise_haltsWith _ _⟩
  · intro hpc
    have hmax : max s.pc.toNat 4096 = 4096 := by simp [hpc]
    rw [← hmax]
    exact ⟨_, step_of_raises hrun (.fetch (by simp [hpc])), s.raise_haltsWith _ _⟩

/-- Settles O11: the halted state is the old one with a fault raised in it. -/
theorem faultingStepChangesNothingElse : Obligations.FaultingStepChangesNothingElse := by
  intro s t hrun hs ht
  obtain ⟨f, word, -, rfl⟩ := step_halts_cases hrun hs ht
  exact ⟨f, word, s.raise_haltsWith f word⟩

/-- An instruction that raises a fault is no shift. -/
theorem ne_shift_of_raisesIn {i : Instr} {s : State} {f : Fault} (h : RaisesIn i s f) (x : Index) :
    i ≠ .shr x ∧ i ≠ .shl x := by
  constructor <;> rintro rfl <;> cases f <;> simp [RaisesIn, transferLength] at h

/-- The recorded word is the one fetched: an instruction that raises a fault has one word only. -/
theorem StepRaises.word_eq {s : State} {f : Fault} {word : Option Word} (h : StepRaises s f word) :
    word = if s.pc.toNat + 1 < 4096 then some (s.wordAt s.pc.toNat) else none := by
  cases h with
  | fetch hpc => rw [if_neg (by omega)]
  | unknown hpc => rw [if_pos hpc]
  | instr hfetch hf =>
    obtain ⟨hpc, hd⟩ := hfetch
    rw [if_pos hpc, (encodeOfDecode _ _ hd).2 (ne_shift_of_raisesIn hf)]
    rfl

/-- Settles O12: the record holds the fetched word, and code and info follow from the kind. -/
theorem faultRecordNamesTheInstruction : Obligations.FaultRecordNamesTheInstruction := by
  intro s t hrun hs ht
  have hreport := stepReport_of_next hs
  obtain ⟨f, word, hf, rfl⟩ := step_halts_cases hrun hs ht
  refine ⟨_, rfl, hreport, rfl, hf.word_eq, ?_⟩
  cases f <;> exact ⟨rfl, rfl⟩

/-- Settles O13: the fault of the halted state is one the step raises, whose cause each kind spells out. -/
theorem onlyTheListedCausesHalt : Obligations.OnlyTheListedCausesHalt := by
  intro s t f pc word hrun hs ht hfault
  obtain ⟨f', word', hf, rfl⟩ := step_halts_cases hrun hs ht
  cases hfault
  cases hf with
  | fetch hpc => exact .inl ⟨hpc, rfl⟩
  | unknown hpc hd => exact ⟨hpc, wordWellFormed_eq_false.mpr hd⟩
  | instr hfetch hf =>
    cases f
    case unknownOpcode => exact hf.elim
    case stackUnderflow =>
      obtain ⟨rfl, hempty⟩ := hf
      exact ⟨hfetch, hempty⟩
    case stackOverflow =>
      obtain ⟨⟨nnn, rfl⟩, hfull⟩ := hf
      exact ⟨⟨nnn, hfetch⟩, hfull⟩
    case memoryOutOfBounds a =>
      obtain ⟨n, hn, hpos, hout, ha⟩ := hf
      exact .inr ⟨_, n, hfetch, hn, hpos, hout, ha⟩
    case keyIndexOutOfRange k =>
      obtain ⟨hk, x, rfl | rfl, hx⟩ := hf
      · exact ⟨hk, x, .inl hfetch, hx⟩
      · exact ⟨hk, x, .inr hfetch, hx⟩

end Sys2Proof.Machine
end

section
/-! What an instruction writes (spec/10_state.md section 6): the parts of the state, the registers, and pc. -/

namespace Sys2Proof.Machine

/-! ## Frames of the remaining writes, each with the default advance -/

theorem State.writeResultAndFlag_advance_keepsAllBut (s : State) (x : Index) (r f : Byte) (q : State → Byte) :
    KeepsAllBut [.v, .pc] s (s.writeResultAndFlag x r f q).advance := by
  intro p hp
  cases p
  case v | pc => exact absurd (by decide) hp
  all_goals simp [Part.same]

theorem State.loadV_advance_keepsAllBut (s : State) (bs : List Byte) :
    KeepsAllBut [.v, .pc] s (s.loadV bs).advance := by
  intro p hp
  cases p
  case v | pc => exact absurd (by decide) hp
  all_goals simp [Part.same]

theorem State.setV_nextDraw_advance_keepsAllBut (s : State) (x : Index) (b : Byte) :
    KeepsAllBut [.v, .draws, .pc] s (s.setV x b).nextDraw.advance := by
  intro p hp
  cases p
  case v | draws | pc => exact absurd (by decide) hp
  all_goals simp [Part.same]

theorem State.setFb_setV_advance_keepsAllBut (s : State) (fb : Frame) (x : Index) (b : Byte) :
    KeepsAllBut [.v, .fb, .pc] s ((s.setFb fb).setV x b).advance := by
  intro p hp
  cases p
  case v | fb | pc => exact absurd (by decide) hp
  all_goals simp [Part.same]

theorem State.storeBytes_advance_keepsAllBut (s : State) (a : Nat) (bs : List Byte) :
    KeepsAllBut [.mem, .pc] s (s.storeBytes a bs).advance := by
  intro p hp
  cases p
  case mem | pc => exact absurd (by decide) hp
  all_goals simp [Part.same]

theorem State.push_setPc_keepsAllBut (s : State) (w w' : Word) :
    KeepsAllBut [.pc, .stack] s ((s.push w).setPc w') := by
  intro p hp
  cases p
  case pc | stack => exact absurd (by decide) hp
  all_goals simp [Part.same]

theorem State.dropTop_setPc_keepsAllBut (s : State) (w : Word) :
    KeepsAllBut [.pc, .stack] s (s.dropTop.setPc w) := by
  intro p hp
  cases p
  case pc | stack => exact absurd (by decide) hp
  all_goals simp [Part.same]

theorem KeepsAllBut.refl (changed : List Part) (s : State) : KeepsAllBut changed s s := by
  intro p _
  cases p <;> simp [Part.same]

/-! ## The parts an instruction writes -/

/-- The parts an instruction that raises no fault may write. -/
def writtenParts : Instr → List Part
  | .cls => [.fb, .pc]
  | .ret | .call _ => [.pc, .stack]
  | .jp _ | .jpV0 _ | .seImm _ _ | .sneImm _ _ | .seReg _ _ | .sneReg _ _ | .skp _ | .sknp _ => [.pc]
  | .ldImm _ _ | .addImm _ _ | .ldReg _ _ | .orReg _ _ | .andReg _ _ | .xorReg _ _ | .addReg _ _ | .sub _ _
  | .shr _ | .subn _ _ | .shl _ | .ldVxDt _ | .ldVxK _ | .ldVxMem _ => [.v, .pc]
  | .rnd _ _ => [.v, .draws, .pc]
  | .drw _ _ _ => [.v, .fb, .pc]
  | .ldI _ | .addI _ | .ldF _ => [.i, .pc]
  | .ldDtVx _ => [.dt, .pc]
  | .ldStVx _ => [.st, .pc]
  | .ldB _ | .ldMemVx _ => [.mem, .pc]

theorem completion_keepsAllBut (i : Instr) (s : State) : KeepsAllBut (writtenParts i) s (completion i s) := by
  cases i
  case cls => exact s.setFb_advance_keepsAllBut _
  case ret => exact s.dropTop_setPc_keepsAllBut _
  case call => exact s.push_setPc_keepsAllBut _ _
  case jp | jpV0 => exact s.setPc_keepsAllBut _
  case seImm | sneImm | seReg | sneReg | skp | sknp => exact s.skipIf_keepsAllBut _
  case addReg | sub | shr | subn | shl => exact s.writeResultAndFlag_advance_keepsAllBut _ _ _ _
  case rnd => exact s.setV_nextDraw_advance_keepsAllBut _ _
  case drw => exact s.setFb_setV_advance_keepsAllBut _ _ _
  case ldI | addI | ldF => exact s.setI_advance_keepsAllBut _
  case ldDtVx => exact s.setDt_advance_keepsAllBut _
  case ldStVx => exact s.setSt_advance_keepsAllBut _
  case ldB | ldMemVx => exact s.storeBytes_advance_keepsAllBut _ _
  case ldVxMem => exact s.loadV_advance_keepsAllBut _
  case ldVxK x =>
    unfold completion
    cases s.lowestKey with
    | none => exact KeepsAllBut.refl _ s
    | some k => exact s.setV_advance_keepsAllBut _ _
  all_goals exact s.setV_advance_keepsAllBut _ _

/-- A part that running an instruction changes, other than by a fault, is one the instruction writes. -/
theorem mem_writtenParts_of_exec {i : Instr} {s t : State} {p : Part} (h : exec i s = .next t) (hp : p ≠ .status)
    (hchange : ¬p.same s t) : p ∈ writtenParts i := by
  by_contra hmem
  rcases exec_next_cases h with ⟨f, -, rfl⟩ | ⟨-, rfl⟩
  · obtain ⟨-, -, hkeep⟩ := s.raise_haltsWith f (some (encode i))
    exact hchange (hkeep p (by simpa using hp))
  · exact hchange (completion_keepsAllBut i s p hmem)

theorem i_mem_writtenParts {i : Instr} :
    Part.i ∈ writtenParts i ↔ (∃ nnn, i = .ldI nnn) ∨ ∃ x, i = .addI x ∨ i = .ldF x := by
  cases i <;> simp [writtenParts]

theorem dt_mem_writtenParts {i : Instr} : Part.dt ∈ writtenParts i ↔ ∃ x, i = .ldDtVx x := by
  cases i <;> simp [writtenParts]

theorem st_mem_writtenParts {i : Instr} : Part.st ∈ writtenParts i ↔ ∃ x, i = .ldStVx x := by
  cases i <;> simp [writtenParts]

theorem stack_mem_writtenParts {i : Instr} : Part.stack ∈ writtenParts i ↔ i = .ret ∨ ∃ nnn, i = .call nnn := by
  cases i <;> simp [writtenParts]

theorem mem_mem_writtenParts {i : Instr} : Part.mem ∈ writtenParts i ↔ ∃ x, i = .ldB x ∨ i = .ldMemVx x := by
  cases i <;> simp [writtenParts]

theorem fb_mem_writtenParts {i : Instr} : Part.fb ∈ writtenParts i ↔ i = .cls ∨ ∃ x y n, i = .drw x y n := by
  cases i <;> simp [writtenParts]

/-- Settles O18: four columns of the table of written parts. -/
theorem onlyListedInstructionsWriteSpecialRegisters : Obligations.OnlyListedInstructionsWriteSpecialRegisters := by
  intro i s t h
  refine ⟨fun hne => i_mem_writtenParts.mp ?_, fun hne => dt_mem_writtenParts.mp ?_,
    fun hne => st_mem_writtenParts.mp ?_, fun hne => stack_mem_writtenParts.mp ?_⟩
  all_goals exact mem_writtenParts_of_exec h (by decide) hne

/-- Settles O19: two more columns of the table of written parts. -/
theorem onlyListedInstructionsWriteMemoryAndFrame : Obligations.OnlyListedInstructionsWriteMemoryAndFrame := by
  intro i s t h
  constructor
  · rintro ⟨a, ha⟩
    exact mem_mem_writtenParts.mp (mem_writtenParts_of_exec h (by decide) fun hsame => ha (hsame a))
  · intro hne
    exact fb_mem_writtenParts.mp (mem_writtenParts_of_exec h (by decide) hne)

/-! ## The registers an instruction writes -/

theorem completion_getV {i : Instr} {k : Index} (h : writesV k i = false) (s : State) :
    (completion i s).getV k = s.getV k := by
  by_cases hv : Part.v ∈ writtenParts i
  case neg => exact completion_keepsAllBut i s .v hv k
  cases i
  case addReg | sub | shr | subn | shl =>
    simp only [writesV, Bool.or_eq_false_iff, beq_eq_false_iff_ne] at h
    simp [completion, State.writeResultAndFlag_getV, h]
  case ldVxMem x =>
    have hk : x.val + 1 ≤ k.val := by simpa [writesV] using h
    simp [completion, State.loadV_getV, List.getElem?_eq_none, State.bytesAt_length, hk]
  case ldVxK x =>
    simp only [writesV, beq_eq_false_iff_ne] at h
    unfold completion
    cases s.lowestKey <;> simp [State.setV_getV, h]
  case ldImm | addImm | ldReg | orReg | andReg | xorReg | rnd | ldVxDt | drw =>
    simp only [writesV, beq_eq_false_iff_ne] at h
    simp [completion, State.setV_getV, h]
  all_goals simp [writtenParts] at hv

/-- Settles O20: a fault writes no register, and a completion the listed ones only. -/
theorem onlyListedInstructionsWriteV : Obligations.OnlyListedInstructionsWriteV := by
  intro i s t k h hne
  rcases exec_next_cases h with ⟨f, -, rfl⟩ | ⟨-, rfl⟩
  · exact absurd rfl hne
  · by_contra hw
    exact hne (completion_getV (Bool.eq_false_of_not_eq_true hw) s)

/-! ## The program counter -/

theorem State.skipIf_pc_cases (s : State) (c : Bool) : (s.skipIf c).pc = s.pc + 2 ∨ (s.skipIf c).pc = s.pc + 4 := by
  cases c
  · exact .inl rfl
  · exact .inr rfl

/-- Settles O21: a state that is not halted is a completion, whose pc each instruction spells out. -/
theorem pcAdvancesAsListed : Obligations.PcAdvancesAsListed := by
  intro i s t h hrun
  rcases exec_next_cases h with ⟨f, -, rfl⟩ | ⟨hf, rfl⟩
  · simp at hrun
  cases i
  case jp nnn | call nnn => exact zext16_toNat nnn
  case jpV0 nnn => exact zext16_add_byteZext16_toNat nnn (s.getV 0)
  case ret =>
    rcases hs : s.stack.getLast? with _ | v
    · exact absurd ⟨rfl, List.getLast?_eq_none_iff.mp hs⟩ (hf .stackUnderflow)
    · simp [completion, hs]
  case seImm | sneImm | seReg | sneReg | skp | sknp =>
    exact s.skipIf_pc_cases _
  case ldVxK x =>
    unfold completion
    cases s.lowestKey with
    | none => exact .inl rfl
    | some k => exact .inr rfl
  all_goals simp [completion]

end Sys2Proof.Machine
end

section
/-! The invariant State.Inv (spec/10_state.md, spec/60_exceptions.md): it holds at reset, every step keeps it, and so
does every other move of the host. -/

namespace Sys2Proof.Machine

/-! ## Reset -/

theorem State.resetWith_inv (p : Params) (fb : Frame) (keys : Vector Bool 16) (draws : Nat) :
    (State.resetWith p fb keys draws).Inv where
  memory := Memory.wf_nil
  pcBound := show 0x200 ≤ 0x10FE by decide
  stackBound _ _ := Nat.zero_le _
  returns _ h := absurd h List.not_mem_nil
  status := rfl
  faultPc _ h := nomatch h

/-- Settles O14: the invariant holds after a reset under any parameters. -/
theorem resetMeetsInvariant : Obligations.ResetMeetsInvariant := State.resetWith_inv _ _ _ _

/-! ## One step -/

theorem State.Inv.raise {s : State} (h : s.Inv) (f : Fault) (word : Option Word) : (s.raise f word).Inv where
  memory := h.memory
  pcBound := h.pcBound
  stackBound := h.stackBound
  returns := h.returns
  status := rfl
  faultPc r hr := by
    obtain rfl := Option.some.inj hr
    rfl

theorem status_not_mem_writtenParts (i : Instr) : Part.status ∉ writtenParts i := by
  cases i <;> simp [writtenParts]

theorem params_not_mem_writtenParts (i : Instr) : Part.params ∉ writtenParts i := by
  cases i <;> simp [writtenParts]

/-- An instruction that writes no byte keeps the memory list itself. -/
theorem completion_mem {i : Instr} (h : Part.mem ∉ writtenParts i) (s : State) : (completion i s).mem = s.mem := by
  cases i
  case ldVxK x =>
    unfold completion
    cases s.lowestKey <;> rfl
  case ldB | ldMemVx => simp [writtenParts] at h
  all_goals simp [completion]

section
variable {i : Instr} {s : State} (hs : s.Inv) (hf : ∀ f, ¬RaisesIn i s f)
include hs hf

theorem completion_memory_wf : Memory.wf (completion i s).params.font (completion i s).mem = true := by
  rw [show (completion i s).params = s.params from completion_keepsAllBut i s .params (params_not_mem_writtenParts i)]
  by_cases hm : Part.mem ∈ writtenParts i
  · have hbound : ∀ n, transferLength i = some n → n = 0 ∨ s.i.toNat + n ≤ 4096 := by
      intro n hn
      by_contra hout
      rw [not_or] at hout
      exact hf _ (raisesIn_of_outOfBounds hn (Nat.pos_of_ne_zero hout.1) (Nat.lt_of_not_le hout.2))
    obtain ⟨x, rfl | rfl⟩ := mem_mem_writtenParts.mp hm
    · have hin : s.i.toNat + 3 ≤ 4096 := (hbound 3 rfl).resolve_left (by decide)
      exact s.storeBytes_wf hs.memory hin
    · have hin : s.i.toNat + (s.regsUpTo x).length ≤ 4096 := by
        rw [s.regsUpTo_length]
        exact (hbound _ rfl).resolve_left (Nat.succ_ne_zero _)
      exact s.storeBytes_wf hs.memory hin
  · rw [completion_mem hm]
    exact hs.memory

theorem completion_pc_le (hrun : s.halted = false) (hpc : s.pc.toNat + 2 ≤ 4096) :
    (completion i s).pc.toNat ≤ 0x10FE := by
  have hhalt : (completion i s).halted = false :=
    (completion_keepsAllBut i s .status (status_not_mem_writtenParts i)).1.trans hrun
  have h := pcAdvancesAsListed i s _ (exec_of_not_raises hf) hhalt
  have h2 : (s.pc + 2).toNat ≤ 0x10FE := by bv_omega
  have h4 : (s.pc + 4).toNat ≤ 0x10FE := by bv_omega
  have h0 := hs.pcBound
  cases i
  case jp nnn | call nnn =>
    have := nnn.isLt
    simp only at h
    omega
  case jpV0 nnn =>
    have := nnn.isLt
    have := (s.getV 0).isLt
    simp only at h
    omega
  case ret => exact (hs.returns _ (List.mem_of_getLast? h)).trans (by decide)
  case seImm | sneImm | seReg | sneReg | skp | sknp => rcases h with h | h <;> rwa [h]
  case ldVxK => rcases h with h | h <;> rwa [h]
  all_goals
    simp only at h
    rwa [h]

theorem completion_stackBound (d : Nat) (hd : s.params.stackDepth = some d) :
    (completion i s).stack.length ≤ d := by
  have hle := hs.stackBound d hd
  by_cases hm : Part.stack ∈ writtenParts i
  · obtain rfl | ⟨nnn, rfl⟩ := stack_mem_writtenParts.mp hm
    · simp [completion]
      omega
    · have hne : s.stack.length ≠ d := fun he => hf .stackOverflow ⟨⟨nnn, rfl⟩, he ▸ hd⟩
      simp [completion]
      omega
  · rwa [show (completion i s).stack = s.stack from completion_keepsAllBut i s .stack hm]

omit hf in
theorem completion_returns (hpc : s.pc.toNat + 2 ≤ 4096) : ∀ w ∈ (completion i s).stack, w.toNat ≤ 0x1000 := by
  intro w hw
  by_cases hm : Part.stack ∈ writtenParts i
  · obtain rfl | ⟨nnn, rfl⟩ := stack_mem_writtenParts.mp hm
    · exact hs.returns w (List.mem_of_mem_dropLast hw)
    · obtain hw | rfl : w ∈ s.stack ∨ w = s.pc + 2 := by simpa [completion] using hw
      · exact hs.returns w hw
      · bv_omega
  · rw [show (completion i s).stack = s.stack from completion_keepsAllBut i s .stack hm] at hw
    exact hs.returns w hw

theorem completion_inv (hrun : s.halted = false) (hpc : s.pc.toNat + 2 ≤ 4096) : (completion i s).Inv := by
  obtain ⟨hhalt, hfault⟩ := completion_keepsAllBut i s .status (status_not_mem_writtenParts i)
  have hparams : (completion i s).params = s.params :=
    completion_keepsAllBut i s .params (params_not_mem_writtenParts i)
  have hnone : s.fault = none := by simpa [hrun] using hs.status
  exact {
    memory := completion_memory_wf hs hf
    pcBound := completion_pc_le hs hf hrun hpc
    stackBound := fun d hd => completion_stackBound hs hf d (hparams ▸ hd)
    returns := completion_returns hs hpc
    status := by rw [hhalt, hfault, hs.status]
    faultPc := fun r hr => by simp [hfault, hnone] at hr }

end

/-- Settles O15: a halted block stays as it is, a fault keeps all the invariant speaks of, and each completion keeps
it. -/
theorem stepKeepsInvariant : Obligations.StepKeepsInvariant := by
  intro s t hs ht
  rcases step_cases s with ⟨-, h⟩ | ⟨-, -, h⟩ | ⟨-, -, -, h⟩ | ⟨hrun, hpc, i, -, h⟩
  · cases h.symm.trans ht
    exact hs
  · cases h.symm.trans ht
    exact hs.raise _ _
  · cases h.symm.trans ht
    exact hs.raise _ _
  · rcases exec_next_cases (h.symm.trans ht) with ⟨f, -, rfl⟩ | ⟨hf, rfl⟩
    · exact hs.raise f _
    · exact completion_inv hs hf hrun hpc

/-! ## The other moves of the host -/

theorem State.Inv.load {s : State} (h : s.Inv) (image : List Byte) : (s.load image).1.Inv := by
  unfold State.load
  split
  case isTrue hw =>
    have hlen := imageWellFormed_iff.mp hw
    exact { h with memory := s.storeBytes_wf h.memory (by omega) }
  case isFalse => exact h

theorem State.Inv.stepReport {s : State} (h : s.Inv) : s.stepReport.1.Inv := by
  obtain ⟨t, ht⟩ := stepAlwaysAnswersNext s
  rw [stepReport_of_next ht]
  exact stepKeepsInvariant s t h ht

theorem State.Inv.tick {s : State} (h : s.Inv) : s.tick.Inv := { h with }

theorem State.Inv.setKey {s : State} (h : s.Inv) (k : Index) (down : Bool) : (s.setKey k down).Inv := { h with }

/-- Settles O16: each of the host's moves keeps the invariant, so every run of them does. -/
theorem runsKeepInvariant : Obligations.RunsKeepInvariant := by
  apply runOps_induction
  intro h g op hinv hmove
  rcases Session.move_cases hmove with ⟨-, rfl⟩ | ⟨image, -, -, rfl⟩ | ⟨-, rfl⟩ | ⟨-, rfl⟩ | ⟨k, down, -, rfl⟩
  · exact State.resetWith_inv _ _ _ _
  · exact hinv.load image
  · exact hinv.stepReport
  · exact hinv.tick
  · exact hinv.setKey k down

end Sys2Proof.Machine
end

section
/-! The words of the instructions that raise faults, as sums of their fields (spec/30_encoding.md R79), and the two
endings of an instruction in the form the statements ask for. -/

namespace Sys2Proof

theorem toNat_append_eq_add {m n : Nat} (a : BitVec m) (b : BitVec n) :
    (a ++ b).toNat = a.toNat * 2 ^ n + b.toNat := by
  rw [BitVec.toNat_append, ← Nat.shiftLeft_add_eq_or_of_lt b.isLt, Nat.shiftLeft_eq]

@[simp] theorem nibble_toNat (x : Index) : (nibble x).toNat = x.val := rfl

theorem encodeFA_toNat (p : BitVec 4) (nnn : Addr12) : (encodeFA p nnn).toNat = p.toNat * 4096 + nnn.toNat :=
  toNat_append_eq_add p nnn

theorem encodeFB_toNat (p : BitVec 4) (x : Index) (nn : Byte) :
    (encodeFB p x nn).toNat = (p.toNat * 16 + x.val) * 256 + nn.toNat := by
  refine (toNat_append_eq_add _ nn).trans ?_
  rw [toNat_append_eq_add, nibble_toNat]
  rfl

theorem encodeFR_toNat (p : BitVec 4) (x y n : Index) :
    (encodeFR p x y n).toNat = ((p.toNat * 16 + x.val) * 16 + y.val) * 16 + n.val := by
  refine (toNat_append_eq_add _ (nibble n)).trans ?_
  rw [toNat_append_eq_add, toNat_append_eq_add, nibble_toNat, nibble_toNat, nibble_toNat]
  rfl

theorem index_shiftLeft_8_toNat (x : Index) : (BitVec.ofNat 16 x <<< 8).toNat = x.val * 256 := by
  revert x
  decide

theorem index_shiftLeft_4_toNat (x : Index) : (BitVec.ofNat 16 x <<< 4).toNat = x.val * 16 := by
  revert x
  decide

/-- The word of format FX with its register field 0, and the register added. -/
theorem encodeFB_eq_add (p : BitVec 4) (x : Index) (nn : Byte) :
    encodeFB p x nn = encodeFB p 0 nn + (BitVec.ofNat 16 x <<< 8) := by
  apply BitVec.eq_of_toNat_eq
  rw [BitVec.toNat_add, encodeFB_toNat, encodeFB_toNat, index_shiftLeft_8_toNat]
  have hp : p.toNat < 16 := p.isLt
  have hnn : nn.toNat < 256 := nn.isLt
  simp only [Fin.val_zero]
  omega

theorem encode_call (nnn : Addr12) : encode (.call nnn) = 0x2000#16 + nnn.setWidth 16 := by
  apply BitVec.eq_of_toNat_eq
  have hn : nnn.toNat < 4096 := nnn.isLt
  rw [encode, encodeFA_toNat, BitVec.toNat_add, BitVec.toNat_setWidth_of_le (by decide)]
  simp
  omega

theorem encode_drw (x y n : Index) : encode (.drw x y n) =
    0xD000#16 + (BitVec.ofNat 16 x <<< 8) + (BitVec.ofNat 16 y <<< 4) + BitVec.ofNat 16 n := by
  apply BitVec.eq_of_toNat_eq
  rw [encode, encodeFR_toNat, BitVec.toNat_add, BitVec.toNat_add, BitVec.toNat_add, index_shiftLeft_8_toNat,
    index_shiftLeft_4_toNat, BitVec.toNat_ofNat]
  simp
  omega

end Sys2Proof

namespace Sys2Proof.Machine

/-- An instruction that raises a fault answers the state halted by it, with its own word. -/
theorem exec_haltsWith {i : Instr} {s : State} {f : Fault} {w : Word} (h : RaisesIn i s f) (hw : encode i = w) :
    ∃ t, exec i s = .next t ∧ HaltsWith f (some w) s t :=
  ⟨_, hw ▸ exec_of_raises h, hw ▸ s.raise_haltsWith f _⟩

end Sys2Proof.Machine
end

section
/-! The program-counter sequencer and the key skips (spec/40_pc_sequencer.md, spec/44_keys_timers.md): the return, the
call, and the skips that compare registers or read a key. -/

namespace Sys2Proof.Machine

/-! ## The call and the return -/

theorem exec_ret_of_append {s : State} {st : List Word} {v : Word} (h : s.stack = st ++ [v]) :
    exec .ret s = .next (s.dropTop.setPc v) := by
  simp only [exec, execRet, h, List.getLast?_concat]

theorem exec_call_of_not_full (nnn : Addr12) {s : State} (h : s.params.stackDepth ≠ some s.stack.length) :
    exec (.call nnn) s = .next ((s.push (s.pc + 2)).setPc (zext16 nnn)) := by
  simp only [exec, execCall, s.stackFull_iff, h, if_false]

/-- Settles O22: a stack ends in an entry, which the return pops, or is empty. -/
theorem retReturnsOrUnderflows : Obligations.RetReturnsOrUnderflows := by
  intro s
  constructor
  · intro st v hst
    refine ⟨_, exec_ret_of_append hst, rfl, ?_, s.dropTop_setPc_keepsAllBut v⟩
    rw [State.setPc_stack, State.dropTop_stack, hst, List.dropLast_concat]
  · intro hempty
    exact ⟨rfl, exec_haltsWith (f := .stackUnderflow) ⟨rfl, hempty⟩ rfl⟩

/-- Settles O24: the stack is full exactly at P_STACK_DEPTH entries. -/
theorem callPushesOrOverflows : Obligations.CallPushesOrOverflows := by
  intro nnn s
  constructor
  · intro hroom
    exact ⟨_, exec_call_of_not_full nnn hroom, rfl, zext16_toNat nnn, s.push_setPc_keepsAllBut _ _⟩
  · intro hfull
    exact ⟨rfl, exec_haltsWith (f := .stackOverflow) ⟨⟨nnn, rfl⟩, hfull⟩ (encode_call nnn)⟩

/-- Settles O42: the return pops the entry the call pushed. -/
theorem callThenReturnComesBack : Obligations.CallThenReturnComesBack := by
  intro nnn s pc v hroom
  refine ⟨_, _, exec_call_of_not_full nnn hroom, exec_ret_of_append rfl, rfl, ?_⟩
  exact List.dropLast_concat

/-! ## The skips that compare registers -/

theorem exec_seReg (x y : Index) (s : State) :
    exec (.seReg x y) s = .next (s.skipIf (s.getV x == s.getV y)) := rfl

theorem exec_sneReg (x y : Index) (s : State) :
    exec (.sneReg x y) s = .next (s.skipIf (s.getV x != s.getV y)) := rfl

/-- Settles O26: both skips are one `skipIf`, and the decoder asks for a low nibble of 0 under both first digits. -/
theorem skipsCompareRegisters : Obligations.SkipsCompareRegisters := by
  refine ⟨fun x y s => ⟨?se, ?sne⟩, fun x y n hn => ?words⟩
  case se => exact ⟨_, exec_seReg x y s, by simp only [State.skipIf_pc, beq_iff_eq], s.skipIf_keepsAllBut _⟩
  case sne => exact ⟨_, exec_sneReg x y s, by simp only [State.skipIf_pc, bne_iff_ne], s.skipIf_keepsAllBut _⟩
  case words => simp [decode, hn]

/-! ## The key skips -/

theorem State.keyAt_index (s : State) {x k : Index} (h : (s.getV x).toNat = k.val) :
    s.keyAt (s.getV x) = some s.keys[k] := by
  rw [State.keyAt, h]
  exact s.keys_getElem? k

theorem exec_skp_of_key {s : State} {x k : Index} (h : (s.getV x).toNat = k.val) :
    exec (.skp x) s = .next (s.skipIf s.keys[k]) := by
  simp only [exec, execSkp, s.keyAt_index h]

theorem exec_sknp_of_key {s : State} {x k : Index} (h : (s.getV x).toNat = k.val) :
    exec (.sknp x) s = .next (s.skipIf !s.keys[k]) := by
  simp only [exec, execSknp, s.keyAt_index h]

/-- Settles O48: V[x] names a key, whose level decides both skips, or is above 0xF, and both raise the fault. -/
theorem keySkips : Obligations.KeySkips := by
  intro x s
  refine ⟨fun k hk => ⟨?skp, ?sknp⟩, fun hbig => ⟨?skpFault, ?sknpFault⟩⟩
  case skp => exact ⟨_, exec_skp_of_key hk, s.skipIf_pc _, s.skipIf_keepsAllBut _⟩
  case sknp =>
    refine ⟨_, exec_sknp_of_key hk, ?_, s.skipIf_keepsAllBut _⟩
    rw [State.skipIf_pc]
    cases s.keys[k] <;> rfl
  case skpFault =>
    exact exec_haltsWith (f := .keyIndexOutOfRange _) ⟨hbig, x, .inl rfl, rfl⟩ (encodeFB_eq_add 0xE x 0x9E)
  case sknpFault =>
    exact exec_haltsWith (f := .keyIndexOutOfRange _) ⟨hbig, x, .inr rfl, rfl⟩ (encodeFB_eq_add 0xE x 0xA1)

end Sys2Proof.Machine
end

section
/-! The register-file ALU (spec/41_register_alu.md): the logical operations, the masked free byte, the flag writers
under each P_VF_ORDER, and the font address. -/

namespace Sys2Proof.Machine

/-! ## The logical operations and the free byte -/

theorem exec_orReg (x y : Index) (s : State) :
    exec (.orReg x y) s = .next (s.setV x (s.getV x ||| s.getV y)).advance := rfl

theorem exec_andReg (x y : Index) (s : State) :
    exec (.andReg x y) s = .next (s.setV x (s.getV x &&& s.getV y)).advance := rfl

theorem exec_xorReg (x y : Index) (s : State) :
    exec (.xorReg x y) s = .next (s.setV x (s.getV x ^^^ s.getV y)).advance := rfl

/-- Settles O28: each of the three is one write of V[x] and the advance, so VF is kept unless it is V[x]. -/
theorem logicOperationsLeaveTheFlag : Obligations.LogicOperationsLeaveTheFlag := by
  intro x y s
  refine ⟨?or, ?and, ?xor⟩
  case or =>
    obtain ⟨hx, hrest⟩ := s.setV_advance_effect x (s.getV x ||| s.getV y)
    exact ⟨_, exec_orReg x y s, fun b _ => by rw [hx, BitVec.getLsbD_or], hrest⟩
  case and =>
    obtain ⟨hx, hrest⟩ := s.setV_advance_effect x (s.getV x &&& s.getV y)
    exact ⟨_, exec_andReg x y s, fun b _ => by rw [hx, BitVec.getLsbD_and], hrest⟩
  case xor =>
    obtain ⟨hx, hrest⟩ := s.setV_advance_effect x (s.getV x ^^^ s.getV y)
    exact ⟨_, exec_xorReg x y s, fun b _ => by rw [hx, BitVec.getLsbD_xor], hrest⟩

theorem exec_rnd (x : Index) (nn : Byte) (s : State) :
    exec (.rnd x nn) s = .next (s.setV x (s.randByte &&& nn)).nextDraw.advance := rfl

/-- Settles O35: the byte of the draw that is due, masked, whatever it is. -/
theorem rndMasksAFreeByte : Obligations.RndMasksAFreeByte := by
  intro x nn s
  have hx : (s.setV x (s.randByte &&& nn)).nextDraw.advance.getV x = Config.randByte s.draws &&& nn := by
    rw [State.advance_getV, State.nextDraw_getV, State.setV_getV_same, State.randByte]
  refine ⟨_, exec_rnd x nn s, hx, ?_, rfl, rfl, s.setV_advance_keepsRegsBut x _,
    s.setV_nextDraw_advance_keepsAllBut x _⟩
  rintro rfl
  exact hx.trans BitVec.and_zero

/-! ## The flags as numbers -/

theorem flag_toNat (c : Bool) : (flag c).toNat = if c = true then 1 else 0 := by
  cases c <;> rfl

theorem carryFlag_toNat (a b : Byte) : (carryFlag a b).toNat = if a.toNat + b.toNat > 255 then 1 else 0 := by
  simp only [carryFlag, flag_toNat, decide_eq_true_eq]

theorem noBorrowFlag_toNat (a b : Byte) : (noBorrowFlag a b).toNat = if a.toNat ≥ b.toNat then 1 else 0 := by
  simp only [noBorrowFlag, flag_toNat, decide_eq_true_eq]

theorem lowBitFlag_toNat (a : Byte) : (lowBitFlag a).toNat = a.toNat % 2 := by
  rw [lowBitFlag, BitVec.toNat_and]
  exact Nat.and_one_is_mod _

theorem highBitFlag_toNat (a : Byte) : (highBitFlag a).toNat = a.toNat / 128 := by
  have ha : a.toNat < 256 := a.isLt
  rw [highBitFlag, BitVec.toNat_and, BitVec.toNat_ushiftRight, Nat.shiftRight_eq_div_pow]
  refine (Nat.and_one_is_mod _).trans (Nat.mod_eq_of_lt ?_)
  omega

theorem byte_sub_toNat (a b : Byte) : (a - b).toNat = (256 + a.toNat - b.toNat) % 256 := by
  bv_omega

theorem byte_half_toNat (a : Byte) : (a >>> 1).toNat = a.toNat / 2 := by
  rw [BitVec.toNat_ushiftRight, Nat.shiftRight_eq_div_pow]

theorem byte_double_toNat (a : Byte) : (a <<< 1).toNat = 2 * a.toNat % 256 := by
  rw [BitVec.toNat_shiftLeft, Nat.shiftLeft_eq, Nat.mul_comm]

/-! ## The flag-and-result write -/

theorem State.setV_getV_toNat (s : State) (x k : Index) (b : Byte) :
    ((s.setV x b).getV k).toNat = if k = x then b.toNat else (s.getV k).toNat := by
  rw [State.setV_getV, apply_ite BitVec.toNat]

/-- Everything a flag writer does, with its flag and its result as numbers (spec/41_register_alu.md R120, R134). -/
theorem State.writeResultAndFlag_effect (s : State) (x : Index) {r f : Byte} {q : State → Byte} {rn fn : Nat}
    (hf : f.toNat = fn)
    (hr : (if s.params.vfOrder = .sequential then q (s.setV VF f) else r).toNat = rn) :
    let t := (s.writeResultAndFlag x r f q).advance
    (x ≠ VF → (t.getV x).toNat = rn ∧ (t.getV VF).toNat = fn) ∧
      (x = VF → (t.getV VF).toNat = if s.params.vfOrder = .flagLast then fn else rn) ∧
      t.pc = s.pc + 2 ∧ KeepsRegsBut [x, VF] s t ∧ KeepsAllBut [.v, .pc] s t := by
  subst hf hr
  refine ⟨fun hx => ⟨?result, ?flag⟩, ?both, ?pc, ?regs, s.writeResultAndFlag_advance_keepsAllBut x r f q⟩
  case result => rw [State.advance_getV, s.writeResultAndFlag_getV, if_neg (by simp [hx]), if_pos rfl]
  case flag => rw [State.advance_getV, s.writeResultAndFlag_getV, if_pos ⟨rfl, .inl hx⟩]
  case both =>
    rintro rfl
    rw [State.advance_getV, s.writeResultAndFlag_getV]
    by_cases hlast : s.params.vfOrder = .flagLast <;> simp [hlast]
  case pc => rw [State.advance_pc, State.writeResultAndFlag_pc]
  case regs =>
    intro k hk
    simp only [List.mem_cons, List.not_mem_nil, or_false, not_or] at hk
    rw [State.advance_getV, s.writeResultAndFlag_getV, if_neg (by simp [hk.2]), if_neg hk.1]

/-- Settles O29: the sum is taken before the flag write under every order, so SeqResult is the result. -/
theorem addSetsCarry : Obligations.AddSetsCarry := by
  rintro x y s f r rfl rfl
  refine ⟨_, rfl, s.writeResultAndFlag_effect x (carryFlag_toNat _ _) ?_⟩
  rw [ite_self, BitVec.toNat_add]

/-- The difference a subtraction writes: of the registers after the flag write under sequential, else of the old ones
(spec/41_register_alu.md R134). -/
theorem State.difference_toNat (s : State) (a b : Index) {f : Byte} {fn : Nat} (hf : f.toNat = fn) :
    (if s.params.vfOrder = .sequential then (s.setV VF f).getV a - (s.setV VF f).getV b
      else s.getV a - s.getV b).toNat =
    if s.params.vfOrder = .sequential then
      (256 + (if a = VF then fn else (s.getV a).toNat) - (if b = VF then fn else (s.getV b).toNat)) % 256
    else (256 + (s.getV a).toNat - (s.getV b).toNat) % 256 := by
  split
  · rw [byte_sub_toNat, s.setV_getV_toNat, s.setV_getV_toNat, hf]
  · rw [byte_sub_toNat]

/-- Settles O30: V[x] - V[y], with its flag. -/
theorem subSetsNoBorrow : Obligations.SubSetsNoBorrow := by
  intro x y s f r hf hr
  have hflag := (noBorrowFlag_toNat (s.getV x) (s.getV y)).trans hf.symm
  exact ⟨_, rfl, s.writeResultAndFlag_effect x hflag ((s.difference_toNat x y hflag).trans hr.symm)⟩

/-- Settles O31: V[y] - V[x], with its flag. -/
theorem subnSetsNoBorrow : Obligations.SubnSetsNoBorrow := by
  intro x y s f r hf hr
  have hflag := (noBorrowFlag_toNat (s.getV y) (s.getV x)).trans hf.symm
  exact ⟨_, rfl, s.writeResultAndFlag_effect x hflag ((s.difference_toNat y x hflag).trans hr.symm)⟩

/-- Settles O32: under sequential with x = F the flag itself is halved. -/
theorem shrPutsOutTheLowBit : Obligations.ShrPutsOutTheLowBit := by
  intro x s f r hf hr
  have hflag := (lowBitFlag_toNat (s.getV x)).trans hf.symm
  refine ⟨_, rfl, s.writeResultAndFlag_effect x hflag ?_⟩
  rw [hr]
  split
  · rw [byte_half_toNat, s.setV_getV_toNat, hflag]
  · rw [byte_half_toNat]

/-- Settles O33: under sequential with x = F the flag itself is doubled. -/
theorem shlPutsOutTheHighBit : Obligations.ShlPutsOutTheHighBit := by
  intro x s f r hf hr
  have hflag := (highBitFlag_toNat (s.getV x)).trans hf.symm
  refine ⟨_, rfl, s.writeResultAndFlag_effect x hflag ?_⟩
  rw [hr]
  split
  · rw [byte_double_toNat, s.setV_getV_toNat, hflag]
  · rw [byte_double_toNat]

/-! ## The three orders away from VF -/

/-- Where VF is not the destination and the flag write does not reach the result, the orders differ in nothing. -/
theorem State.writeResultAndFlag_orders (s : State) (o : VfOrder) {x : Index} {r f : Byte} {q : State → Byte}
    (hx : x ≠ VF) (hq : q (s.setV VF f) = r) (hq' : q ((s.withVfOrder o).setV VF f) = r) :
    KeepsAllBut [.params] (s.writeResultAndFlag x r f q).advance
      ((s.withVfOrder o).writeResultAndFlag x r f q).advance := by
  intro p hp
  cases p
  case params => exact absurd (by decide) hp
  case v =>
    intro k
    simp [State.writeResultAndFlag_getV, hx, hq, hq']
  all_goals simp [Part.same]

/-- Settles O34: the five flag writers read no VF, so SeqResult is the result. -/
theorem ordersAgreeAwayFromVF : Obligations.OrdersAgreeAwayFromVF := by
  intro s o x y hx hy i hi
  simp only [List.mem_cons, List.not_mem_nil, or_false] at hi
  rcases hi with rfl | rfl | rfl | rfl | rfl
  all_goals
    refine ⟨_, _, rfl, rfl, s.writeResultAndFlag_orders o hx ?_ ?_⟩ <;>
      simp [State.setV_getV, hx, hy]

/-! ## The font address -/

theorem exec_ldF (x : Index) (s : State) :
    exec (.ldF x) s = .next (s.setI (glyphAddress (fontDigit s.params.fx29Wide (s.getV x)))).advance := rfl

theorem fontDigit_lowNibble (b : Byte) : fontDigit .lowNibble b = b.toNat % 16 :=
  (BitVec.toNat_and ..).trans (Nat.and_two_pow_sub_one_eq_mod b.toNat 4)

theorem fontDigit_unmasked (b : Byte) : fontDigit .unmasked b = b.toNat := rfl

theorem fontDigit_lt (wide : Fx29Wide) (b : Byte) : fontDigit wide b < 256 := by
  cases wide with
  | lowNibble =>
    rw [fontDigit_lowNibble]
    omega
  | unmasked => exact b.isLt

/-- The mask to 12 bits takes nothing off the address of a digit that a byte can name. -/
theorem glyphAddress_toNat {d : Nat} (h : d < 256) : (glyphAddress d).toNat = 0x050 + 5 * d := by
  rw [glyphAddress, BitVec.toNat_and, BitVec.toNat_ofNat]
  refine (Nat.and_two_pow_sub_one_eq_mod _ 12).trans ?_
  omega

/-- Settles O37: the address of the digit the setting takes from V[x]. -/
theorem fontGlyphAddress : Obligations.FontGlyphAddress := by
  intro x s
  obtain ⟨hi, hpc, hrest⟩ := s.setI_advance_effect (glyphAddress (fontDigit s.params.fx29Wide (s.getV x)))
  refine ⟨_, exec_ldF x s, ?_, hpc, hrest⟩
  rw [hi, glyphAddress_toNat (fontDigit_lt _ _)]
  cases s.params.fx29Wide with
  | lowNibble => rw [fontDigit_lowNibble]
  | unmasked => rw [fontDigit_unmasked]

end Sys2Proof.Machine
end

section
/-! The memory transfers (spec/42_index_memory.md) and the load of an image (spec/70_reset_and_hazards.md section 2): a
store of bytes at consecutive addresses, what it sets and what it keeps. -/

namespace Sys2Proof.Machine

/-! ## A transfer in bounds, and one that is not -/

theorem exec_of_inBounds {i : Instr} {s : State} {n : Nat} (h : transferLength i = some n)
    (hn : n = 0 ∨ s.i.toNat + n ≤ 4096) : exec i s = .next (completion i s) :=
  exec_of_not_raises (not_raisesIn_of_inBounds h hn)

theorem exec_haltsWith_of_outOfBounds {i : Instr} {s : State} {n : Nat} {w : Word} (h : transferLength i = some n)
    (hpos : 0 < n) (hout : 4096 < s.i.toNat + n) (hw : encode i = w) :
    ∃ t, exec i s = .next t ∧ HaltsWith (.memoryOutOfBounds (max s.i.toNat 4096)) (some w) s t :=
  exec_haltsWith (raisesIn_of_outOfBounds h hpos hout) hw

theorem exec_ldB_of_inBounds {x : Index} {s : State} (h : s.i.toNat + 3 ≤ 4096) :
    exec (.ldB x) s = .next (s.storeBytes s.i.toNat (bcdDigits (s.getV x))).advance :=
  exec_of_inBounds rfl (.inr h)

theorem exec_ldMemVx_of_inBounds {x : Index} {s : State} (h : s.i.toNat + (x.val + 1) ≤ 4096) :
    exec (.ldMemVx x) s = .next (s.storeBytes s.i.toNat (s.regsUpTo x)).advance :=
  exec_of_inBounds rfl (.inr h)

theorem exec_ldVxMem_of_inBounds {x : Index} {s : State} (h : s.i.toNat + (x.val + 1) ≤ 4096) :
    exec (.ldVxMem x) s = .next (s.loadV (s.bytesAt s.i.toNat (x.val + 1))).advance :=
  exec_of_inBounds rfl (.inr h)

/-! ## Stores -/

/-- A byte of a store is read back at its own address. -/
theorem State.storeBytes_byteAt_getElem? (s : State) {a k : Nat} {bs : List Byte} {b : Byte}
    (h : Memory.wf s.params.font s.mem = true) (ha : a + bs.length ≤ 4096) (hk : bs[k]? = some b) :
    (s.storeBytes a bs).byteAt (a + k) = b := by
  rw [s.storeBytes_byteAt h ha, if_pos (Nat.le_add_right a k), Nat.add_sub_cancel_left, hk, Option.getD_some]

/-- A digit of a byte, or what is left of it by a division, is a byte. -/
theorem digit_toNat {d : Nat} (h : d < 256) : (BitVec.ofNat 8 d).toNat = d :=
  Nat.mod_eq_of_lt h

/-- Settles O38: the three digits are the bytes of the store. -/
theorem bcdStoresDigits : Obligations.BcdStoresDigits := by
  intro x s hwf
  refine ⟨fun hin => ?fits, fun hout => ?faults⟩
  case fits =>
    have ha : s.i.toNat + (bcdDigits (s.getV x)).length ≤ 4096 := hin
    have hv : (s.getV x).toNat < 256 := (s.getV x).isLt
    refine ⟨_, exec_ldB_of_inBounds hin, ?hundreds, ?tens, ?units, s.storeBytes_keeps hwf ha rfl, rfl,
      s.storeBytes_advance_keepsAllBut _ _⟩
    case hundreds =>
      exact (congrArg BitVec.toNat (s.storeBytes_byteAt_getElem? (k := 0) hwf ha rfl)).trans (digit_toNat (by omega))
    case tens =>
      exact (congrArg BitVec.toNat (s.storeBytes_byteAt_getElem? (k := 1) hwf ha rfl)).trans (digit_toNat (by omega))
    case units =>
      exact (congrArg BitVec.toNat (s.storeBytes_byteAt_getElem? (k := 2) hwf ha rfl)).trans (digit_toNat (by omega))
  case faults => exact exec_haltsWith_of_outOfBounds rfl (by decide) (by omega) (encodeFB_eq_add 0xF x 0x33)

/-- Settles O39: byte k of the store is V[k]. -/
theorem storeRegisters : Obligations.StoreRegisters := by
  intro x s hwf
  refine ⟨fun hin => ?fits, fun hout => ?faults⟩
  case fits =>
    have ha : s.i.toNat + (s.regsUpTo x).length ≤ 4096 := by
      rw [s.regsUpTo_length]
      exact hin
    refine ⟨_, exec_ldMemVx_of_inBounds hin, fun k hk => ?_,
      s.storeBytes_keeps hwf ha (s.regsUpTo_length x), rfl, s.storeBytes_advance_keepsAllBut _ _⟩
    exact s.storeBytes_byteAt_getElem? hwf ha (s.regsUpTo_getElem? x k hk)
  case faults => exact exec_haltsWith_of_outOfBounds rfl (Nat.succ_pos _) (by omega) (encodeFB_eq_add 0xF x 0x55)

/-! ## The load of registers -/

/-- The registers up to x after Fx65 hold the bytes from I on (spec/42_index_memory.md R155). -/
theorem State.loadV_bytesAt_getV (s : State) (a : Nat) {x k : Index} (hk : k ≤ x) :
    (s.loadV (s.bytesAt a (x.val + 1))).getV k = s.byteAt (a + k.val) := by
  rw [s.loadV_getV, s.bytesAt_getElem? (Nat.lt_succ_of_le hk), Option.getD_some]

theorem State.loadV_bytesAt_getV_of_lt (s : State) (a : Nat) {x k : Index} (hk : x < k) :
    (s.loadV (s.bytesAt a (x.val + 1))).getV k = s.getV k := by
  rw [s.loadV_getV, List.getElem?_eq_none, Option.getD_none]
  rw [s.bytesAt_length]
  exact hk

/-- Settles O40: the list of bytes read reaches the registers up to x and no further. -/
theorem loadRegisters : Obligations.LoadRegisters := by
  intro x s
  refine ⟨fun hin => ?fits, fun hout => ?faults⟩
  case fits =>
    refine ⟨_, exec_ldVxMem_of_inBounds hin, fun k hk => ?upTo, fun k hk => ?above, rfl,
      s.loadV_advance_keepsAllBut _⟩
    case upTo => rw [State.advance_getV, s.loadV_bytesAt_getV _ hk]
    case above => rw [State.advance_getV, s.loadV_bytesAt_getV_of_lt _ hk]
  case faults => exact exec_haltsWith_of_outOfBounds rfl (Nat.succ_pos _) (by omega) (encodeFB_eq_add 0xF x 0x65)

/-- Settles O41: the load reads the bytes the store wrote, whatever registers stand between. -/
theorem storeThenLoadRestoresRegisters : Obligations.StoreThenLoadRestoresRegisters := by
  intro x s junk hwf hin
  obtain ⟨t, ht, hbytes, -, -, hkeep⟩ := (storeRegisters x s hwf).1 hin
  have hi : t.i = s.i := hkeep .i (by decide)
  obtain ⟨u, hu, hregs, -⟩ := (loadRegisters x { t with v := junk }).1 (hi ▸ hin)
  refine ⟨t, u, ht, hu, fun k hk => ?_⟩
  calc
    u.getV k = t.byteAt (t.i.toNat + k.val) := hregs k hk
    _ = s.getV k := by rw [hi, hbytes k hk]

/-! ## The load of an image -/

theorem State.storeBytes_keepsAllBut (s : State) (a : Nat) (bs : List Byte) :
    KeepsAllBut [.mem] s (s.storeBytes a bs) := by
  intro p hp
  cases p
  case mem => exact absurd (by decide) hp
  all_goals simp [Part.same]

/-- Settles O52: the check on the image's length is the one that keeps the store below 4096. -/
theorem loadCopiesOrRejects : Obligations.LoadCopiesOrRejects := by
  intro s image hwf
  constructor
  · intro hlen
    have ha : 0x200 + image.length ≤ 4096 := by omega
    have hload : s.load image = (s.storeBytes 0x200 image, .ok) := by
      rw [State.load, imageWellFormed_iff.mpr hlen, if_pos rfl]
    rw [hload]
    refine ⟨rfl, fun k hk => ?_, s.storeBytes_keeps hwf ha rfl, s.storeBytes_keepsAllBut _ _⟩
    exact s.storeBytes_byteAt_getElem? hwf ha (List.getElem?_eq_getElem hk)
  · intro hlen
    have hbad : ¬imageWellFormed image = true := by
      rw [imageWellFormed_iff]
      omega
    exact ⟨rfl, by rw [State.load, if_neg hbad]⟩

end Sys2Proof.Machine
end

section
/-! Dxyn (spec/43_draw_engine.md R171, R172): the pixels of a sprite are distinct, a draw XORs exactly them, and a
second draw undoes the first. -/

namespace Sys2Proof.Machine

/-! ## Distinct pixels -/

/-- Eight columns are distinct modulo 64. -/
theorem rowPixels_nodup (cx py : Nat) (row : Byte) : (rowPixels cx py row).Nodup := by
  refine List.pairwise_filterMap.mpr (List.pairwise_lt_range.imp_of_mem ?_)
  intro c d hc hd hlt p hp q hq hpq
  rw [List.mem_range] at hc hd
  have hcol : (cx + c) % 64 = (cx + d) % 64 := by
    split_ifs at hp hq
    cases hp
    cases hq
    exact congrArg (fun p : Pixel => p.1.val) hpq
  omega

/-- Up to 32 rows are distinct modulo 32. -/
theorem spritePixels_nodup (cx cy : Nat) (rows : List Byte) (h : rows.length ≤ 32) :
    (spritePixels cx cy rows).Nodup := by
  induction rows generalizing cy with
  | nil => exact List.nodup_nil
  | cons row rows ih =>
    rw [List.length_cons] at h
    refine (rowPixels_nodup cx cy row).append (ih (cy + 1) (by omega)) ?_
    intro p hp hp'
    obtain ⟨-, -, -, -, hrow⟩ := mem_rowPixels.mp hp
    obtain ⟨r, -, hr, -, -, -, hrow'⟩ := mem_spritePixels.mp hp'
    omega

/-- Settles O46: a sprite has at most 15 rows. -/
theorem spritePixelsAreDistinct : Obligations.SpritePixelsAreDistinct := by
  intro s x y n
  refine spritePixels_nodup _ _ _ ?_
  rw [s.bytesAt_length]
  omega

/-! ## One draw -/

theorem exec_drw_of_inBounds {x y n : Index} {s : State} (h : n = 0 ∨ s.i.toNat + n.val ≤ 4096) :
    exec (.drw x y n) s = .next ((s.setFb (drawPixels s.fb false (s.drawnPixels x y n)).1).setV VF
      (flag (drawPixels s.fb false (s.drawnPixels x y n)).2)).advance :=
  exec_of_inBounds rfl (h.imp_left fun h0 => congrArg Fin.val h0)

theorem State.framePixel_draw (s : State) (x y n : Index) (p : Pixel) :
    framePixel (drawPixels s.fb false (s.drawnPixels x y n)).1 p = true ↔
      (framePixel s.fb p = true ∧ ¬SpriteCovers s (drawCoordinate s x) (drawCoordinate s y) n.val p) ∨
      (framePixel s.fb p = false ∧ SpriteCovers s (drawCoordinate s x) (drawCoordinate s y) n.val p) := by
  rw [(drawPixels_spec _ (spritePixelsAreDistinct s x y n) s.fb false).1 p, ← s.mem_drawnPixels]
  cases framePixel s.fb p <;> simp

theorem State.hit_draw (s : State) (x y n : Index) :
    (drawPixels s.fb false (s.drawnPixels x y n)).2 = true ↔
      ∃ p, framePixel s.fb p = true ∧ SpriteCovers s (drawCoordinate s x) (drawCoordinate s y) n.val p := by
  rw [(drawPixels_spec _ (spritePixelsAreDistinct s x y n) s.fb false).2, Bool.false_or, List.any_eq_true]
  exact exists_congr fun p => by rw [s.mem_drawnPixels, and_comm]

/-- Settles O45: distinct pixels are XORed once each, and VF says whether one of them was set. -/
theorem drawXorsTheSprite : Obligations.DrawXorsTheSprite := by
  intro x y n s
  refine ⟨fun hin => ?fits, fun hn hout => ?faults⟩
  case fits =>
    refine ⟨_, exec_drw_of_inBounds hin, s.framePixel_draw x y n, fun hhit => ?hit, fun hno => ?noHit, rfl,
      fun k hk => ?regs, s.setFb_setV_advance_keepsAllBut _ _ _⟩
    case hit => rw [State.advance_getV, State.setV_getV_same, (s.hit_draw x y n).mpr hhit, flag, if_pos rfl]
    case noHit =>
      have hfalse : (drawPixels s.fb false (s.drawnPixels x y n)).2 = false := by
        rw [Bool.eq_false_iff, Ne, s.hit_draw]
        exact fun ⟨p, hset, hcov⟩ => hno p hset hcov
      rw [State.advance_getV, State.setV_getV_same, hfalse]
      rfl
    case regs => rw [State.advance_getV, State.setV_getV_ne _ _ (List.ne_of_not_mem_cons hk), State.setFb_getV]
  case faults =>
    exact exec_haltsWith_of_outOfBounds rfl (Nat.pos_of_ne_zero (Fin.val_ne_of_ne hn)) hout (encode_drw x y n)

/-! ## Two draws -/

theorem drawCoordinate_congr {s w : State} {x : Index} (hp : w.params = s.params) (hx : w.getV x = s.getV x) :
    drawCoordinate w x = drawCoordinate s x := by
  rw [drawCoordinate, drawCoordinate, hp, hx]

theorem spriteCovers_congr {s w : State} (hi : w.i = s.i) (hmem : ∀ a, w.byteAt a = s.byteAt a) (cx cy n : Nat)
    (p : Pixel) : SpriteCovers w cx cy n p ↔ SpriteCovers s cx cy n p := by
  simp only [SpriteCovers, hi, hmem]

/-- Settles O47: each draw is the XOR with one set of pixels, so the second undoes the first and hits what was unset. -/
theorem drawingTwiceRestoresTheFrame : Obligations.DrawingTwiceRestoresTheFrame := by
  intro x y n s hin
  obtain ⟨t, ht, hpix, -⟩ := (drawXorsTheSprite x y n s).1 hin
  refine ⟨t, ht, fun w hfb hi hparams hmem hx hy => ?_⟩
  obtain ⟨u, hu, hpix', hhit, hno, -⟩ := (drawXorsTheSprite x y n w).1 (hi ▸ hin)
  simp only [hfb, drawCoordinate_congr hparams hx, drawCoordinate_congr hparams hy, spriteCovers_congr hi hmem]
    at hpix' hhit hno
  refine ⟨u, hu, ?frame, ?hit, ?_⟩
  case frame =>
    refine frame_ext fun p => ?_
    rw [Bool.eq_iff_iff, hpix', Bool.eq_false_iff, Ne, hpix, Bool.eq_false_iff]
    tauto
  case hit =>
    intro hone
    by_contra hnone
    have hzero := hno fun p hset hcov => hnone ⟨p, by
      rw [hpix] at hset
      tauto, hcov⟩
    simp [hzero] at hone
  · rintro ⟨p, hunset, hcov⟩
    exact hhit ⟨p, (hpix p).mpr (.inr ⟨hunset, hcov⟩), hcov⟩

end Sys2Proof.Machine
end

section
/-! The canonical form of memory, the word a host places, and the self-jump that ends a run (spec/10_state.md section 5,
spec/30_encoding.md section 1, spec/60_exceptions.md section 6). -/

namespace Sys2Proof.Machine

/-! ## Canonical memories -/

/-- The first cell of a canonical memory is told apart from an unlisted address by a read. -/
theorem Memory.read_head_ne {font : Vector Byte 80} {lo k : Nat} {b : Byte} {m m' : Memory}
    (h : Memory.wfFrom font lo ((k, b) :: m) = true) (h' : Memory.wfFrom font (k + 1) m' = true) :
    Memory.read font ((k, b) :: m) k ≠ Memory.read font m' k := by
  obtain ⟨-, -, hb, -⟩ := Memory.wfFrom_cons.mp h
  rwa [Memory.read, if_pos rfl, Memory.read_below h' (Nat.lt_succ_self k)]

/-- Memories that read the same have the same cells, from the first address on. -/
theorem Memory.eq_of_read_eq {font : Vector Byte 80} {lo : Nat} {m m' : Memory} (h : Memory.wfFrom font lo m = true)
    (h' : Memory.wfFrom font lo m' = true) (hread : ∀ a, Memory.read font m a = Memory.read font m' a) : m = m' := by
  induction m generalizing lo m' with
  | nil =>
    cases m' with
    | nil => rfl
    | cons c' m' => exact absurd (hread c'.1).symm (Memory.read_head_ne h' rfl)
  | cons c m ih =>
    cases m' with
    | nil => exact absurd (hread c.1) (Memory.read_head_ne h rfl)
    | cons c' m' =>
      obtain ⟨k, b⟩ := c
      obtain ⟨k', b'⟩ := c'
      obtain ⟨hlo, hk, hb, hm⟩ := Memory.wfFrom_cons.mp h
      obtain ⟨hlo', hk', hb', hm'⟩ := Memory.wfFrom_cons.mp h'
      rcases Nat.lt_trichotomy k k' with hlt | rfl | hgt
      · exact absurd (hread k) (Memory.read_head_ne h (Memory.wfFrom_cons.mpr ⟨hlt, hk', hb', hm'⟩))
      · obtain rfl : b = b' := by simpa [Memory.read] using hread k
        rw [ih hm hm' fun a => ?_]
        rcases Nat.lt_or_ge a (k + 1) with hle | hge
        · rw [Memory.read_below hm hle, Memory.read_below hm' hle]
        · have hne : k ≠ a := by omega
          simpa [Memory.read, hne] using hread a
      · exact absurd (hread k').symm (Memory.read_head_ne h' (Memory.wfFrom_cons.mpr ⟨hgt, hk, hb, hm⟩))

/-- Settles O43: the canonical form at address 0. -/
theorem canonicalMemoriesAreEqual : Obligations.CanonicalMemoriesAreEqual :=
  fun _ _ _ h h' hread => Memory.eq_of_read_eq h h' hread

/-! ## The word placed where the step fetches -/

theorem tableWord_toNat (w : Word) : tableWord 16 w.toNat = w := by
  rw [tableWord, Nat.mod_eq_of_lt w.isLt, BitVec.ofNat_toNat, BitVec.setWidth_eq]

theorem State.placeWord_halted (s : State) (w : Word) : (s.placeWord w).halted = false := rfl

theorem State.placeWord_pc_lt (s : State) (w : Word) : (s.placeWord w).pc.toNat + 1 < 4096 := by
  simp only [State.placeWord]
  split_ifs with h
  · exact h
  · decide

/-- Both bytes of the word stand where the step fetches. -/
theorem State.placeWord_wordAt (s : State) (w : Word) (h : Memory.wf s.params.font s.mem = true) :
    (s.placeWord w).wordAt (s.placeWord w).pc.toNat = w := by
  have ha : (s.placeWord w).pc.toNat + [highByte w, lowByte w].length ≤ 4096 := s.placeWord_pc_lt w
  have hhi : (s.placeWord w).byteAt (s.placeWord w).pc.toNat = highByte w :=
    s.storeBytes_byteAt_getElem? (k := 0) h ha rfl
  have hlo : (s.placeWord w).byteAt ((s.placeWord w).pc.toNat + 1) = lowByte w :=
    s.storeBytes_byteAt_getElem? (k := 1) h ha rfl
  rw [State.wordAt, hhi, hlo, joinBytes_split]

/-- Settles O54: the placed word is fetched and decoded, and the block runs. -/
theorem placedWordRuns : Obligations.PlacedWordRuns := by
  intro s w i hwf hd
  rw [State.withFetchWord, tableWord_toNat]
  refine stepRunsDecodedInstruction _ i (s.placeWord_halted w) ⟨s.placeWord_pc_lt w, ?_⟩
  have hword := s.placeWord_wordAt w hwf
  rw [State.wordAt, joinBytes] at hword
  rwa [hword]

/-! ## The self-jump -/

theorem zext16_setWidth {pc : Word} (h : pc.toNat < 4096) : zext16 (pc.setWidth 12) = pc := by
  apply BitVec.eq_of_toNat_eq
  rw [zext16_toNat, BitVec.toNat_setWidth, Nat.mod_eq_of_lt h]

theorem encode_selfJump {pc : Word} (h : pc.toNat < 4096) : encode (.jp (pc.setWidth 12)) = 0x1000#16 + pc := by
  apply BitVec.eq_of_toNat_eq
  rw [encode, encodeFA_toNat, BitVec.toNat_setWidth, Nat.mod_eq_of_lt h, BitVec.toNat_add]
  simp
  omega

theorem State.finished_iff (s : State) :
    s.finished = true ↔
      s.halted = false ∧ s.pc.toNat ≤ 0xFFE ∧ s.wordAt s.pc.toNat = 0x1000#16 + s.pc := by
  simp [State.finished, and_assoc]

/-- Settles O55: the jump writes the pc it finds. -/
theorem selfJumpStaysFinished : Obligations.SelfJumpStaysFinished := by
  intro s hfin
  obtain ⟨hrun, hpc, hword⟩ := s.finished_iff.mp hfin
  have hpc' : s.pc.toNat < 4096 := by omega
  have hfetch : s.Fetches (.jp (s.pc.setWidth 12)) := by
    refine ⟨by omega, ?_⟩
    rw [State.wordAt, joinBytes] at hword
    rw [hword, ← encode_selfJump hpc', decodeOfEncode]
  refine ⟨?_, hrun⟩
  rw [stepRunsDecodedInstruction s _ hrun hfetch, exec_jp, zext16_setWidth hpc']
  rfl

end Sys2Proof.Machine
end

section
/-! The host's other operations (spec/60_exceptions.md sections 4 and 6, spec/70_reset_and_hazards.md): the tick, the
reset, and when a load may come; and that no instruction reads ST. -/

namespace Sys2Proof.Machine

/-! ## The tick -/

theorem countDown_toNat (b : Byte) : (countDown b).toNat = b.toNat - 1 := by
  unfold countDown
  split_ifs with h
  · rw [h]
    rfl
  · bv_omega

/-- Settles O51: both timers count down, and no other part is touched. -/
theorem tickCountsDown : Obligations.TickCountsDown := by
  intro s
  refine ⟨countDown_toNat s.dt, countDown_toNat s.st, fun p hp => ?_⟩
  cases p
  case dt | st => exact absurd (by decide) hp
  all_goals simp [Part.same]

/-! ## The reset -/

/-- What every reset leaves, for any parameters and free values (spec/10_state.md R37). -/
theorem State.resetWith_listed (p : Params) (fb : Frame) (keys : Vector Bool 16) (draws : Nat) :
    let t := State.resetWith p fb keys draws
    (∀ k, t.getV k = 0) ∧ t.i = 0 ∧ t.pc = 0x200 ∧ t.stack = [] ∧ t.dt = 0 ∧ t.st = 0 ∧ t.halted = false ∧
      t.fault = none ∧ (∀ k : Fin 80, t.byteAt (0x050 + k.val) = t.params.font[k]) ∧
      (∀ a, a < 0x050 ∨ 0x0A0 ≤ a → t.byteAt a = 0) :=
  ⟨fun _ => Vector.getElem_replicate .., rfl, rfl, rfl, rfl, rfl, rfl, rfl, Memory.unlisted_font p.font,
    fun _ ha => Memory.unlisted_zero p.font ha⟩

/-- Settles O53: the host's reset and power-on are one operation, with other parameters and free values. -/
theorem resetLeavesTheListedState : Obligations.ResetLeavesTheListedState := by
  refine ⟨?listed, fun s => ⟨rfl, rfl⟩, rfl, fun k => Vector.getElem_replicate ..⟩
  intro s t ht
  rw [List.mem_pair] at ht
  rcases ht with rfl | rfl <;> exact State.resetWith_listed _ _ _ _

/-! ## When a load may come -/

/-- Whether a load may come after one more operation. -/
def mayLoadAfter (mayLoad : Bool) : HostOp → Bool
  | .reset => true
  | .step => false
  | .load _ | .tick | .setKey _ _ => mayLoad

theorem lawfulOps_cons (mayLoad : Bool) (op : HostOp) (ops : List HostOp) :
    lawfulOps mayLoad (op :: ops) = true ↔
      ((∃ image, op = .load image) → mayLoad = true) ∧ lawfulOps (mayLoadAfter mayLoad op) ops = true := by
  cases op <;> simp [lawfulOps, mayLoadAfter]

/-- A load may come after these operations: none of them is a step after their last reset, or none is a step and a load
could come at the start. -/
def LoadMayFollow (mayLoad : Bool) (before : List HostOp) : Prop :=
  (∃ a b, before = a ++ .reset :: b ∧ .step ∉ b) ∨ (mayLoad = true ∧ .step ∉ before)

theorem loadMayFollow_nil (mayLoad : Bool) : LoadMayFollow mayLoad [] ↔ mayLoad = true := by
  simp [LoadMayFollow]

/-- The last reset of a list is its first operation, or stands in the rest. -/
theorem exists_last_reset_cons (op : HostOp) (ops : List HostOp) :
    (∃ a b, op :: ops = a ++ .reset :: b ∧ .step ∉ b) ↔
      (op = .reset ∧ .step ∉ ops) ∨ ∃ a b, ops = a ++ .reset :: b ∧ .step ∉ b := by
  constructor
  · rintro ⟨_ | ⟨c, a⟩, b, h, hb⟩
    · obtain ⟨rfl, rfl⟩ := List.cons.inj h
      exact .inl ⟨rfl, hb⟩
    · obtain ⟨rfl, rfl⟩ := List.cons.inj h
      exact .inr ⟨a, b, rfl, hb⟩
  · rintro (⟨rfl, hb⟩ | ⟨a, b, rfl, hb⟩)
    · exact ⟨[], ops, rfl, hb⟩
    · exact ⟨op :: a, b, rfl, hb⟩

theorem loadMayFollow_cons (mayLoad : Bool) (op : HostOp) (before : List HostOp) :
    LoadMayFollow mayLoad (op :: before) ↔ LoadMayFollow (mayLoadAfter mayLoad op) before := by
  unfold LoadMayFollow
  rw [exists_last_reset_cons]
  cases op
  case reset =>
    simp only [mayLoadAfter, true_and, List.mem_cons, reduceCtorEq, false_or]
    constructor
    · rintro ((h | h) | ⟨-, h⟩)
      · exact .inr h
      · exact .inl h
      · exact .inr h
    · exact fun h => .inl h.symm
  all_goals simp [mayLoadAfter]

/-- The lawful sequences are those in which a load may follow whatever stands before it. -/
theorem lawfulOps_iff (mayLoad : Bool) (ops : List HostOp) :
    lawfulOps mayLoad ops = true ↔
      ∀ (before : List HostOp) (image : List Byte) (rest : List HostOp), ops = before ++ .load image :: rest →
        LoadMayFollow mayLoad before := by
  induction ops generalizing mayLoad with
  | nil => simp [lawfulOps]
  | cons op ops ih =>
    rw [lawfulOps_cons, ih]
    constructor
    · rintro ⟨hload, hrest⟩ (_ | ⟨op', before⟩) image rest h
      · obtain ⟨rfl, rfl⟩ := List.cons.inj h
        exact (loadMayFollow_nil mayLoad).mpr (hload ⟨image, rfl⟩)
      · obtain ⟨rfl, rfl⟩ := List.cons.inj h
        exact (loadMayFollow_cons mayLoad op before).mpr (hrest before image rest rfl)
    · intro hall
      constructor
      · rintro ⟨image, rfl⟩
        exact (loadMayFollow_nil mayLoad).mp (hall [] image ops rfl)
      · rintro before image rest rfl
        exact (loadMayFollow_cons mayLoad op before).mp (hall (op :: before) image rest rfl)

/-- Settles O56: the sequences that run are the lawful ones, and these are the ones of the statement. -/
theorem hostLoadsOnlyBeforeTheFirstStep : Obligations.HostLoadsOnlyBeforeTheFirstStep := by
  intro h ops
  rw [runOps_isSome]
  exact lawfulOps_iff h.mayLoad ops

/-! ## ST is never read -/

theorem State.setSt_keepsAllBut (s : State) (b : Byte) : KeepsAllBut [.st] s (s.setSt b) := by
  intro p hp
  cases p
  case st => exact absurd (by decide) hp
  all_goals simp [Part.same]

theorem raisesIn_setSt {i : Instr} {s : State} {f : Fault} (b : Byte) : RaisesIn i (s.setSt b) f ↔ RaisesIn i s f := by
  cases f <;> exact Iff.rfl

theorem State.skipIf_setSt (s : State) (b : Byte) (c : Bool) : (s.setSt b).skipIf c = (s.skipIf c).setSt b := by
  cases c <;> rfl

theorem State.writeResultAndFlag_setSt (s : State) (b : Byte) (x : Index) (r f : Byte) {q : State → Byte}
    (hq : ∀ t : State, q (t.setSt b) = q t) :
    (s.setSt b).writeResultAndFlag x r f q = (s.writeResultAndFlag x r f q).setSt b := by
  have hseq : q ((s.setSt b).setV VF f) = q (s.setV VF f) := hq (s.setV VF f)
  unfold State.writeResultAndFlag
  rw [hseq, State.setSt_params]
  split <;> rfl

/-- The value of ST passes through an instruction untouched, unless Fx18 overwrites it. -/
theorem completion_setSt (i : Instr) (s : State) (b : Byte) :
    completion i (s.setSt b) = completion i s ∨ completion i (s.setSt b) = (completion i s).setSt b := by
  cases i
  case ldStVx => exact .inl rfl
  all_goals refine .inr ?_
  case seImm | sneImm | seReg | sneReg | skp | sknp => exact s.skipIf_setSt b _
  case addReg | sub | shr | subn | shl =>
    exact congrArg State.advance (s.writeResultAndFlag_setSt b _ _ _ fun _ => rfl)
  case ldVxK x =>
    simp only [completion, State.lowestKey, State.setSt_keys]
    cases firstPressed s.keys.toList 0 <;> rfl
  all_goals rfl

/-- Settles O57: neither the faults nor the completions of an instruction depend on ST. -/
theorem noInstructionReadsTheSoundTimer : Obligations.NoInstructionReadsTheSoundTimer := by
  intro i s b
  by_cases hf : ∃ f, RaisesIn i s f
  · obtain ⟨f, hf⟩ := hf
    exact ⟨_, _, exec_of_raises hf, exec_of_raises ((raisesIn_setSt b).mpr hf), (s.raise f _).setSt_keepsAllBut b⟩
  · rw [not_exists] at hf
    refine ⟨_, _, exec_of_not_raises hf, exec_of_not_raises fun f => mt (raisesIn_setSt b).mp (hf f), ?_⟩
    rcases completion_setSt i s b with h | h <;> rw [h]
    · exact KeepsAllBut.refl _ _
    · exact (completion i s).setSt_keepsAllBut b

end Sys2Proof.Machine
end
